-- ==== Sys2Proof/Word.lean ====
section
/-! DEFINITION. The data types of the CORE: bytes, 32-bit words, 64-bit integers and byte strings
(spec 00_scope.md R11, R12). Nothing in this hardware is signed (R11). -/

namespace Sys2Proof

/-- A byte, an 8-bit unsigned integer (R11). -/
abbrev Byte := BitVec 8

/-- A word, `u32`: a 32-bit unsigned integer (R11). -/
abbrev Word := BitVec 32

/-- `u64`, used only for the consumed-length counter and the CTR block counter (R11, R13). -/
abbrev DWord := BitVec 64

/-- `Bytes`: a byte string of any length, index 0 first (R12). Its length is not bounded: the open
parameter `MAXLEN` is taken as "no bound" (R10, U5; assumption log 3). -/
abbrev Bytes := List Byte

/-- `BytesK`: a byte string whose length is fixed by its type (R12, R73). -/
abbrev BytesN (k : Nat) := Vector Byte k

/-- A Block: the fixed 16-byte unit of the cipher modes (R6, R17). -/
abbrev Block := BytesN 16

/-- A Key that has passed the length check: 16 bytes (R6, R111). -/
abbrev Key := BytesN 16

/-- The 624 words of a generator state, `u32[624]` (R34, R73). -/
abbrev MtWords := Vector Word 624

end Sys2Proof
end

