-- ==== Sys2Proof/Syntax.lean ====
section
/-! DEFINITION. The command set (spec 30_encoding.md R72): the 23 opcodes, the typed operands a command carries
(R73), and the decoded commands, one constructor per row of spec/opcode_table.json. -/

namespace Sys2Proof

/-- The 23 opcodes of R72, in the table's order. -/
inductive Opcode where
  | pkcs7Pad | pkcs7Strip | pkcs7TryStrip
  | ecbEnc | ecbDec | cbcEnc | cbcDec | ctrXform
  | sha1Init | sha1InitState | sha1Update | sha1Finish | sha1Padding
  | md4Init | md4InitState | md4Update | md4Finish | md4Padding
  | mtNew | mtFrom | mtNext | mtInvRshift | mtInvLshift
deriving DecidableEq, Repr

/-- The operand types of R73. -/
inductive OperandType where
  | bytes | bytes8 | bytes16 | bytes20 | u32 | u64 | words624
deriving DecidableEq, Repr

/-- One typed operand, as it travels beside the command word (R70, R73). -/
inductive Operand where
  /-- `Bytes`: presented with its length, 0 included (D23). -/
  | bytes (b : Bytes)
  /-- `Bytes8`: a CTR nonce. -/
  | bytes8 (b : BytesN 8)
  /-- `Bytes16`: a CBC IV or an MD4 digest. -/
  | bytes16 (b : BytesN 16)
  /-- `Bytes20`: a SHA-1 digest. -/
  | bytes20 (b : BytesN 20)
  | u32 (v : Word)
  | u64 (v : DWord)
  /-- `u32[624]`: a generator state, index 0 first. -/
  | words624 (w : MtWords)
deriving DecidableEq, Repr

/-- A decoded command: the opcode with its `ARG` immediate (`N` or `shift`, R74) and its operands bound, in the
order of R72. -/
inductive Instr where
  | pkcs7Pad (n : Nat) (data : Bytes)
  | pkcs7Strip (n : Nat) (data : Bytes)
  | pkcs7TryStrip (n : Nat) (data : Bytes)
  | ecbEnc (key data : Bytes)
  | ecbDec (key data : Bytes)
  | cbcEnc (key : Bytes) (iv : Block) (data : Bytes)
  | cbcDec (key : Bytes) (iv : Block) (data : Bytes)
  | ctrXform (key : Bytes) (nonce : BytesN 8) (data : Bytes)
  | sha1Init
  | sha1InitState (digest : BytesN 20) (consumed : DWord)
  | sha1Update (data : Bytes)
  | sha1Finish
  | sha1Padding (length : DWord)
  | md4Init
  | md4InitState (digest : BytesN 16) (consumed : DWord)
  | md4Update (data : Bytes)
  | md4Finish
  | md4Padding (length : DWord)
  | mtNew (seed : Word)
  | mtFrom (words : MtWords)
  | mtNext
  | mtInvRshift (shift : Nat) (y : Word)
  | mtInvLshift (shift : Nat) (y mask : Word)
deriving DecidableEq, Repr

end Sys2Proof
end

