-- ==== Sys2Proof/WellFormed.lean ====
section
/-! DEFINITION. When a command is well formed: the ranges of the `ARG` immediate (spec 30_encoding.md R74). Every
other operand is fixed by its type (R73), so it has no check. -/

namespace Sys2Proof

/-- The legal PKCS7 block sizes, 8..16 (R7, R74). -/
abbrev BlockSizeOk (n : Nat) : Prop := 8 ≤ n ∧ n ≤ 16

/-- The legal shift counts, 1..31 (R74, D19). -/
abbrev ShiftOk (shift : Nat) : Prop := 1 ≤ shift ∧ shift ≤ 31

/-- The check on a decoded command: its immediate is in the range R74 gives for its opcode. -/
abbrev WellFormed : Instr → Prop
  | .pkcs7Pad n _ => BlockSizeOk n
  | .pkcs7Strip n _ => BlockSizeOk n
  | .pkcs7TryStrip n _ => BlockSizeOk n
  | .ecbEnc _ _ => True
  | .ecbDec _ _ => True
  | .cbcEnc _ _ _ => True
  | .cbcDec _ _ _ => True
  | .ctrXform _ _ _ => True
  | .sha1Init => True
  | .sha1InitState _ _ => True
  | .sha1Update _ => True
  | .sha1Finish => True
  | .sha1Padding _ => True
  | .md4Init => True
  | .md4InitState _ _ => True
  | .md4Update _ => True
  | .md4Finish => True
  | .md4Padding _ => True
  | .mtNew _ => True
  | .mtFrom _ => True
  | .mtNext => True
  | .mtInvRshift shift _ => ShiftOk shift
  | .mtInvLshift shift _ _ => ShiftOk shift

end Sys2Proof
end

