-- ==== Sys2Proof/Decode.lean ====
section
/-! DEFINITION. From a command word and its operands to a command, and back (spec 30_encoding.md R71 to R77, R81).
The decoder is total: every 32-bit word with every list of operands is a command, illegal, or not presentable. -/

namespace Sys2Proof

/-- What an opcode's `ARG` field holds (R71, R74). -/
inductive ArgKind where
  /-- must be 0 -/
  | zero
  /-- the block size `N`, 8..16 -/
  | blockSize
  /-- the shift count, 1..31 -/
  | shift
deriving DecidableEq, Repr

/-- Why the decoder gives no command. -/
inductive DecodeError where
  /-- The word is illegal (R75). -/
  | illegal
  /-- The word is legal but its operands have not the types of its row, which cannot be presented (R73). -/
  | notPresentable
deriving DecidableEq, Repr

/-- `OPC = CMD32[7:0]` (R71). -/
def opcField (c : BitVec 32) : BitVec 8 := c.extractLsb' 0 8

/-- `ARG = CMD32[12:8]` (R71). -/
def argField (c : BitVec 32) : BitVec 5 := c.extractLsb' 8 5

/-- `ZERO = CMD32[31:13]` (R71). -/
def zeroField (c : BitVec 32) : BitVec 19 := c.extractLsb' 13 19

/-- The opcode numbers of R72. -/
def Opcode.number : Opcode → BitVec 8
  | .pkcs7Pad => 0x10 | .pkcs7Strip => 0x11 | .pkcs7TryStrip => 0x12
  | .ecbEnc => 0x20 | .ecbDec => 0x21 | .cbcEnc => 0x22 | .cbcDec => 0x23 | .ctrXform => 0x24
  | .sha1Init => 0x30 | .sha1InitState => 0x31 | .sha1Update => 0x32 | .sha1Finish => 0x33 | .sha1Padding => 0x34
  | .md4Init => 0x40 | .md4InitState => 0x41 | .md4Update => 0x42 | .md4Finish => 0x43 | .md4Padding => 0x44
  | .mtNew => 0x50 | .mtFrom => 0x51 | .mtNext => 0x52 | .mtInvRshift => 0x53 | .mtInvLshift => 0x54

/-- All opcodes, in the order of R72. -/
def Opcode.all : List Opcode :=
  [.pkcs7Pad, .pkcs7Strip, .pkcs7TryStrip, .ecbEnc, .ecbDec, .cbcEnc, .cbcDec, .ctrXform,
   .sha1Init, .sha1InitState, .sha1Update, .sha1Finish, .sha1Padding,
   .md4Init, .md4InitState, .md4Update, .md4Finish, .md4Padding,
   .mtNew, .mtFrom, .mtNext, .mtInvRshift, .mtInvLshift]

/-- The opcode with a given number; none for the 233 unassigned ones (R75). -/
def Opcode.ofNumber (f : BitVec 8) : Option Opcode := Opcode.all.find? fun o => o.number == f

/-- The `ARG` column of R72. -/
def Opcode.argKind : Opcode → ArgKind
  | .pkcs7Pad | .pkcs7Strip | .pkcs7TryStrip => .blockSize
  | .mtInvRshift | .mtInvLshift => .shift
  | .ecbEnc | .ecbDec | .cbcEnc | .cbcDec | .ctrXform
  | .sha1Init | .sha1InitState | .sha1Update | .sha1Finish | .sha1Padding
  | .md4Init | .md4InitState | .md4Update | .md4Finish | .md4Padding
  | .mtNew | .mtFrom | .mtNext => .zero

/-- The range checks of R74 on the zero-extended `ARG`. -/
def ArgKind.legal : ArgKind → Nat → Bool
  | .zero, a => a == 0
  | .blockSize, a => decide (BlockSizeOk a)
  | .shift, a => decide (ShiftOk a)

/-- The operand column of R72: the types, in order. -/
def Opcode.signature : Opcode → List OperandType
  | .pkcs7Pad | .pkcs7Strip | .pkcs7TryStrip => [.bytes]
  | .ecbEnc | .ecbDec => [.bytes, .bytes]
  | .cbcEnc | .cbcDec => [.bytes, .bytes16, .bytes]
  | .ctrXform => [.bytes, .bytes8, .bytes]
  | .sha1Init | .sha1Finish | .md4Init | .md4Finish | .mtNext => []
  | .sha1InitState => [.bytes20, .u64]
  | .md4InitState => [.bytes16, .u64]
  | .sha1Update | .md4Update => [.bytes]
  | .sha1Padding | .md4Padding => [.u64]
  | .mtNew | .mtInvRshift => [.u32]
  | .mtFrom => [.words624]
  | .mtInvLshift => [.u32, .u32]

/-- Formats `P` and `HU` (R73): one `Bytes`. -/
def bindBytes (f : Bytes → Instr) : List Operand → Option Instr
  | [.bytes d] => some (f d)
  | _ => none

/-- Format `M2`: a key and data. -/
def bindKeyData (f : Bytes → Bytes → Instr) : List Operand → Option Instr
  | [.bytes k, .bytes d] => some (f k d)
  | _ => none

/-- Format `M3` with an IV: a key, 16 bytes and data. -/
def bindKeyIvData (f : Bytes → Block → Bytes → Instr) : List Operand → Option Instr
  | [.bytes k, .bytes16 v, .bytes d] => some (f k v d)
  | _ => none

/-- Format `M3` with a nonce: a key, 8 bytes and data. -/
def bindKeyNonceData (f : Bytes → BytesN 8 → Bytes → Instr) : List Operand → Option Instr
  | [.bytes k, .bytes8 v, .bytes d] => some (f k v d)
  | _ => none

/-- Format `H0`: no operand. -/
def bindNothing (i : Instr) : List Operand → Option Instr
  | [] => some i
  | _ => none

/-- Format `HS` of SHA-1: a 20-byte digest and a count. -/
def bindDigest20 (f : BytesN 20 → DWord → Instr) : List Operand → Option Instr
  | [.bytes20 d, .u64 c] => some (f d c)
  | _ => none

/-- Format `HS` of MD4: a 16-byte digest and a count. -/
def bindDigest16 (f : BytesN 16 → DWord → Instr) : List Operand → Option Instr
  | [.bytes16 d, .u64 c] => some (f d c)
  | _ => none

/-- Format `HL`: one `u64`. -/
def bindU64 (f : DWord → Instr) : List Operand → Option Instr
  | [.u64 l] => some (f l)
  | _ => none

/-- Formats `G1` and `GI1`: one `u32`. -/
def bindU32 (f : Word → Instr) : List Operand → Option Instr
  | [.u32 v] => some (f v)
  | _ => none

/-- Format `GI2`: two `u32`. -/
def bindU32U32 (f : Word → Word → Instr) : List Operand → Option Instr
  | [.u32 v, .u32 m] => some (f v m)
  | _ => none

/-- Format `GA`: 624 words. -/
def bindWords (f : MtWords → Instr) : List Operand → Option Instr
  | [.words624 w] => some (f w)
  | _ => none

/-- Bind `N` or `shift` and the operands to a row (R81 step 3); none where an operand is missing, in excess or of
another type. -/
def bindOperands (o : Opcode) (n : Nat) (ops : List Operand) : Option Instr :=
  match o with
  | .pkcs7Pad => bindBytes (.pkcs7Pad n) ops
  | .pkcs7Strip => bindBytes (.pkcs7Strip n) ops
  | .pkcs7TryStrip => bindBytes (.pkcs7TryStrip n) ops
  | .ecbEnc => bindKeyData .ecbEnc ops
  | .ecbDec => bindKeyData .ecbDec ops
  | .cbcEnc => bindKeyIvData .cbcEnc ops
  | .cbcDec => bindKeyIvData .cbcDec ops
  | .ctrXform => bindKeyNonceData .ctrXform ops
  | .sha1Init => bindNothing .sha1Init ops
  | .sha1InitState => bindDigest20 .sha1InitState ops
  | .sha1Update => bindBytes .sha1Update ops
  | .sha1Finish => bindNothing .sha1Finish ops
  | .sha1Padding => bindU64 .sha1Padding ops
  | .md4Init => bindNothing .md4Init ops
  | .md4InitState => bindDigest16 .md4InitState ops
  | .md4Update => bindBytes .md4Update ops
  | .md4Finish => bindNothing .md4Finish ops
  | .md4Padding => bindU64 .md4Padding ops
  | .mtNew => bindU32 .mtNew ops
  | .mtFrom => bindWords .mtFrom ops
  | .mtNext => bindNothing .mtNext ops
  | .mtInvRshift => bindU32 (.mtInvRshift n) ops
  | .mtInvLshift => bindU32U32 (.mtInvLshift n) ops

/-- The opcode of a legal command word; none exactly for the illegal words of R75, by the word alone. -/
def selectRow (c : BitVec 32) : Option Opcode :=
  if zeroField c ≠ 0 then none
  else match Opcode.ofNumber (opcField c) with
    | none => none
    | some o => if o.argKind.legal (argField c).toNat then some o else none

/-- The decode procedure of R81, steps 2 and 3. -/
def decode (c : BitVec 32) (ops : List Operand) : Except DecodeError Instr :=
  match selectRow c with
  | none => .error .illegal
  | some o =>
    match bindOperands o (argField c).toNat ops with
    | none => .error .notPresentable
    | some i => .ok i

/-- The opcode of a command. -/
def Instr.opcode : Instr → Opcode
  | .pkcs7Pad _ _ => .pkcs7Pad
  | .pkcs7Strip _ _ => .pkcs7Strip
  | .pkcs7TryStrip _ _ => .pkcs7TryStrip
  | .ecbEnc _ _ => .ecbEnc
  | .ecbDec _ _ => .ecbDec
  | .cbcEnc _ _ _ => .cbcEnc
  | .cbcDec _ _ _ => .cbcDec
  | .ctrXform _ _ _ => .ctrXform
  | .sha1Init => .sha1Init
  | .sha1InitState _ _ => .sha1InitState
  | .sha1Update _ => .sha1Update
  | .sha1Finish => .sha1Finish
  | .sha1Padding _ => .sha1Padding
  | .md4Init => .md4Init
  | .md4InitState _ _ => .md4InitState
  | .md4Update _ => .md4Update
  | .md4Finish => .md4Finish
  | .md4Padding _ => .md4Padding
  | .mtNew _ => .mtNew
  | .mtFrom _ => .mtFrom
  | .mtNext => .mtNext
  | .mtInvRshift _ _ => .mtInvRshift
  | .mtInvLshift _ _ _ => .mtInvLshift

/-- The value a command puts in `ARG` (R74). -/
def Instr.arg : Instr → Nat
  | .pkcs7Pad n _ => n
  | .pkcs7Strip n _ => n
  | .pkcs7TryStrip n _ => n
  | .mtInvRshift n _ => n
  | .mtInvLshift n _ _ => n
  | .ecbEnc _ _ | .ecbDec _ _ | .cbcEnc _ _ _ | .cbcDec _ _ _ | .ctrXform _ _ _
  | .sha1Init | .sha1InitState _ _ | .sha1Update _ | .sha1Finish | .sha1Padding _
  | .md4Init | .md4InitState _ _ | .md4Update _ | .md4Finish | .md4Padding _
  | .mtNew _ | .mtFrom _ | .mtNext => 0

/-- The operands a command carries, in the order of R72. -/
def Instr.operands : Instr → List Operand
  | .pkcs7Pad _ d => [.bytes d]
  | .pkcs7Strip _ d => [.bytes d]
  | .pkcs7TryStrip _ d => [.bytes d]
  | .ecbEnc k d => [.bytes k, .bytes d]
  | .ecbDec k d => [.bytes k, .bytes d]
  | .cbcEnc k v d => [.bytes k, .bytes16 v, .bytes d]
  | .cbcDec k v d => [.bytes k, .bytes16 v, .bytes d]
  | .ctrXform k v d => [.bytes k, .bytes8 v, .bytes d]
  | .sha1Init => []
  | .sha1InitState d c => [.bytes20 d, .u64 c]
  | .sha1Update d => [.bytes d]
  | .sha1Finish => []
  | .sha1Padding l => [.u64 l]
  | .md4Init => []
  | .md4InitState d c => [.bytes16 d, .u64 c]
  | .md4Update d => [.bytes d]
  | .md4Finish => []
  | .md4Padding l => [.u64 l]
  | .mtNew v => [.u32 v]
  | .mtFrom w => [.words624 w]
  | .mtNext => []
  | .mtInvRshift _ y => [.u32 y]
  | .mtInvLshift _ y m => [.u32 y, .u32 m]

/-- `CMD32 = OPC + 256 * ARG`, `ZERO` being 0 (R71). -/
def commandWord (o : Opcode) (arg : Nat) : BitVec 32 := BitVec.ofNat 32 (o.number.toNat + 256 * arg)

/-- A command as the host presents it: its word and its operands (R70). -/
def encode (i : Instr) : BitVec 32 × List Operand := (commandWord i.opcode i.arg, i.operands)

/-- The type of an operand. -/
def Operand.type : Operand → OperandType
  | .bytes _ => .bytes
  | .bytes8 _ => .bytes8
  | .bytes16 _ => .bytes16
  | .bytes20 _ => .bytes20
  | .u32 _ => .u32
  | .u64 _ => .u64
  | .words624 _ => .words624

/-- The operand of zeros: the empty string for `Bytes`, zeros elsewhere (assumption log 17). -/
def OperandType.zeros : OperandType → Operand
  | .bytes => .bytes []
  | .bytes8 => .bytes8 (Vector.replicate 8 0)
  | .bytes16 => .bytes16 (Vector.replicate 16 0)
  | .bytes20 => .bytes20 (Vector.replicate 20 0)
  | .u32 => .u32 0
  | .u64 => .u64 0
  | .words624 => .words624 (Vector.replicate 624 0)

/-- The operands of zeros for a command word: those of its row, none where it is illegal. -/
def zeroOperands (c : BitVec 32) : List Operand :=
  match selectRow c with
  | none => []
  | some o => o.signature.map OperandType.zeros

/-- What the decoder reads from a command word of the opcode table, with operands of zeros beside it. A command word
has 32 bits (R77); a wider or a larger number is no command word. -/
def decodeTableWord (nbits w : Nat) : Option Instr :=
  if nbits ≤ 32 ∧ w < 2 ^ 32 then
    match decode (BitVec.ofNat 32 w) (zeroOperands (BitVec.ofNat 32 w)) with
    | .ok i => some i
    | .error _ => none
  else none

end Sys2Proof
end

