-- ==== Sys2Proof/Config.lean ====
section
/-! DEFINITION. The parameters of the hardware (the external block cipher `CIPH`, spec 00_scope.md R9) and the
free values: what the spec leaves unspecified after a `*_FINISH` (10_state.md R31, 42_hash_engine.md R147).
Every constant here is opaque and has no body: no proof can learn a value of it. -/

namespace Sys2Proof

/-- `CIPH_ENC(k, b)` (R9): a total function that depends on its two operands alone. No law is built in: R9's law is a
premise of the round trips alone, and a pair without it is legal (93_implementation_defined.md U6; assumption log
2). -/
opaque Config.ciphEnc : (k : Key) → (b : Block) → Block

/-- `CIPH_DEC(k, b)` (R9): a total function that depends on its two operands alone, free of `CIPH_ENC`. -/
opaque Config.ciphDec : (k : Key) → (b : Block) → Block

/-- Free value: what word `i` of a hash unit's `H` holds after the `n`-th finish (R31, R147: unspecified). -/
opaque Config.freeWord : (n i : Nat) → Word

/-- Free value: what byte `a` of a hash unit's `BUF` holds after the `n`-th finish (R31, R147: unspecified). -/
opaque Config.freeByte : (n a : Nat) → Byte

/-- Free value: what a hash unit's `FILL` holds after the `n`-th finish; unspecified, but of its type 0..63
(R20, R31, R147). -/
opaque Config.freeFill : (n : Nat) → Fin 64

/-- Free value: what a hash unit's `TOTAL` holds after the `n`-th finish (R31, R147: unspecified). -/
opaque Config.freeTotal : (n : Nat) → DWord

end Sys2Proof
end

