-- ==== Sys2Proof/Machine/State.lean ====
section
/-! DEFINITION. The whole persistent state of one CORE instance (spec 10_state.md R20), the model's own record of the
host interface beside it (what the host has presented and what it has been answered), the reasons a step can stop, and
the state after reset (R40). -/

namespace Sys2Proof.Machine

/-- The status of a response (60_exceptions.md R230). The 4-bit codes are `Status.code` in Flags.lean. -/
inductive Status where
  | ok | invalidPadding | oversizedBlock | misalignedCiphertext | invalidKeyLength | illegalCommand | badPhase | faulted
deriving DecidableEq, Repr

/-- The typed result of a response (30_encoding.md R72, R80): none, a byte string or a word. -/
inductive Result where
  | none
  | bytes (b : Bytes)
  | word (w : Word)
deriving DecidableEq, Repr

/-- A response: a status and, only with `OK`, the command's result (R70, R80). -/
structure Response where
  status : Status
  result : Result
deriving DecidableEq, Repr

/-- What the host can do to the CORE, always between commands (00_scope.md R8, 70_reset_and_hazards.md R260): issue a
command word with its operands, or reset. -/
inductive HostEvent where
  | command (word : BitVec 32) (operands : List Operand)
  | reset
deriving DecidableEq, Repr

/-- Byte-addressed storage: (offset, byte) pairs with strictly rising offsets. An unlisted offset holds no value:
nothing has been written there (R28, R40; assumption log 5). -/
abbrev Memory := List Host.Cell

/-- The size of a hash unit's block buffer, `BUF[0..63]` (R28, R50). -/
abbrev bufSize : Nat := 64

/-- The canonical form of a block buffer: offsets strictly rise, and each is one of 0..63 (R50, R52). -/
abbrev Memory.wf (m : Memory) : Prop := m.Pairwise (fun c d => c.1 < d.1) ∧ ∀ c ∈ m, c.1 < bufSize

/-- The phase of a hash unit (R31). -/
inductive HashPhase where
  | idle | init | updating | finalized
deriving DecidableEq, Repr

/-- The registers of one hash unit with `nw` chaining words (R27 to R31; `nw` is `NW(U)` of 42_hash_engine.md R140). -/
structure HashUnit (nw : Nat) where
  /-- `H[0..nw)`, the chaining words (R27). -/
  h : Vector Word nw
  /-- `BUF[0..63]`, the block buffer (R28). -/
  buf : Memory
  /-- `FILL`, the buffer-fill cursor, 0..63 between commands (R29, R32). -/
  fill : Nat
  /-- `TOTAL`, the consumed message bytes (R30). -/
  total : DWord
  /-- `PHASE` (R31). -/
  phase : HashPhase
deriving DecidableEq, Repr

/-- The phase of the generator (R36). -/
inductive PrngPhase where
  | idle | seeded
deriving DecidableEq, Repr

/-- The registers of the PRNG unit (R34 to R36). -/
structure Prng where
  /-- `S[0..623]`, the untempered state words (R34). -/
  s : MtWords
  /-- `CUR`, the output cursor, 0..624 (R35). -/
  cur : Nat
  /-- `PHASE` (R36). -/
  phase : PrngPhase
deriving DecidableEq, Repr

/-- Why the model stops with a fault. No fault can be raised in a state that a run reaches (see
`Sys2Proof.Safety.CoreInv`); each stands for a precondition of the spec that a state out of nowhere could break. -/
inductive Fault where
  /-- A block-buffer access outside offsets 0..63, which R15 says no rule issues. Raised by `memRead` and `memWrite`.
  Safe: the model stops. -/
  | bufferOffset
  /-- A read of a block-buffer byte that nothing has written, which R28 says never happens. Raised by `memRead`.
  Safe: the model stops. -/
  | bufferUnwritten
  /-- An `MT_NEXT` with `CUR` above 624, against the invariant of R35. Raised by `execMtNext`. Safe: the model stops. -/
  | cursorRange
deriving DecidableEq, Repr

/-- Why the model gives a step no meaning. -/
inductive Refusal where
  /-- An instruction whose meaning is not written yet. Raised by no arm of `exec`. Safe: the model stops. -/
  | notModelled (mnemonic : String)
  /-- A legal command word presented with operands of other types than its row of R72 names. R73: they cannot be
  presented; U5, U11 refuse what cannot be presented. Raised by `issue` alone. Safe: the model stops. -/
  | notPresentable
deriving DecidableEq, Repr

/-- The state of one CORE instance: the tuple of R20, then four fields of the model's own. -/
structure State where
  /-- `FAULT`, the fault latch (R23). -/
  fault : Bool
  /-- `FCODE`, the status code of the first fatal status (R23). -/
  fcode : BitVec 4
  /-- The SHA1 unit's context (R27 to R31). -/
  sha1 : HashUnit 5
  /-- The MD4 unit's context (R27 to R31). -/
  md4 : HashUnit 4
  /-- The PRNG unit (R34 to R36). -/
  prng : Prng
  /-- The model's own: what the host has yet to do, the next event first; a command stays at the head until it is
  answered (R8, R62; assumption log 1). -/
  pending : List HostEvent
  /-- The model's own: the responses given so far, the oldest first: all an observer sees (R39, R277; log 7). -/
  responses : List Response
  /-- The model's own: how many times a hash unit has been left with unspecified registers, the argument of the free
  values of Config.lean (R147; log 6). -/
  freeCount : Nat
deriving DecidableEq, Repr

/-- A hash unit after reset: `PHASE = IDLE` (R40); the spec leaves the other registers unspecified, and the model names
zero for them and an empty listing for `BUF` (DESIGN CHOICE, assumption logs 4 and 5). -/
def HashUnit.reset (nw : Nat) : HashUnit nw :=
  { h := Vector.replicate nw 0, buf := [], fill := 0, total := 0, phase := .idle }

/-- The PRNG unit after reset: `PHASE = IDLE` (R40); `S` and `CUR` are unspecified, and the model names zero for them
(DESIGN CHOICE, assumption log 4). -/
def Prng.reset : Prng := { s := Vector.replicate 624 0, cur := 0, phase := .idle }

/-- The state after reset (R40, R260): the latch clear, `FCODE = 0`, every phase `IDLE`; no command presented and none
answered. -/
def State.reset : State :=
  { fault := false, fcode := 0, sha1 := HashUnit.reset 5, md4 := HashUnit.reset 4, prng := Prng.reset,
    pending := [], responses := [], freeCount := 0 }

end Sys2Proof.Machine
end

