-- ==== Sys2Proof/Machine/Flags.lean ====
section
/-! DEFINITION. The only flags of this hardware: the 4-bit status code of a response and the fault latch
(spec 00_scope.md R16, 10_state.md R23, 60_exceptions.md R230, R236). There are no arithmetic flags (R23). -/

namespace Sys2Proof.Machine

/-- The status code table of R230. -/
def Status.code : Status → BitVec 4
  | .ok => 0
  | .invalidPadding => 1
  | .oversizedBlock => 2
  | .misalignedCiphertext => 3
  | .invalidKeyLength => 4
  | .illegalCommand => 5
  | .badPhase => 6
  | .faulted => 7

/-- The "fatal" column of R230: codes 2 to 6. `Faulted` is not itself a new fault (R234). -/
def Status.fatal : Status → Bool
  | .ok | .invalidPadding | .faulted => false
  | .oversizedBlock | .misalignedCiphertext | .invalidKeyLength | .illegalCommand | .badPhase => true

/-- Trap entry sets the latch: `FAULT <- 1`, `FCODE <- code` (R236). -/
def State.latch (st : Status) (s : State) : State := { s with fault := true, fcode := st.code }

end Sys2Proof.Machine
end

