-- ==== Sys2Proof/Machine/Operands.lean ====
section
/-! DEFINITION. Byte strings and byte-word conversion: the primitives of spec 00_scope.md R12 to R14 that the commands
apply to their operands, and the operands of zeros that stand for "no bits given". -/

namespace Sys2Proof.Machine

/-- `B[a..b)`: the bytes at indices `a <= i < b`, empty when `a >= b` (R12). -/
def slice (b : Bytes) (lo hi : Nat) : Bytes := (b.drop lo).take (hi - lo)

/-- `rep(v, n)` (R12). -/
def rep (v : Byte) (n : Nat) : Bytes := List.replicate n v

/-- The byte string as a `BytesK`, when its length is `k`. -/
def bytesN? (k : Nat) (b : Bytes) : Option (BytesN k) :=
  if h : b.length = k then some ⟨⟨b⟩, h⟩ else none

/-- `A xor B` for two strings of equal length (R12). -/
def xorN {k : Nat} (a b : BytesN k) : BytesN k := Vector.ofFn fun i => a[i] ^^^ b[i]

/-- `be32`: the first byte is the most significant (R14). -/
def be32 (b : BytesN 4) : Word := b[0] ++ b[1] ++ b[2] ++ b[3]

/-- `le32`: the first byte is the least significant (R14). -/
def le32 (b : BytesN 4) : Word := b[3] ++ b[2] ++ b[1] ++ b[0]

/-- `be32bytes`, the inverse of `be32` (R14). -/
def be32bytes (w : Word) : BytesN 4 := Vector.ofFn fun i => w.extractLsb' (24 - 8 * i.val) 8

/-- `le32bytes`, the inverse of `le32` (R14). -/
def le32bytes (w : Word) : BytesN 4 := Vector.ofFn fun i => w.extractLsb' (8 * i.val) 8

/-- `be64bytes`: byte `i` is `v[63-8i : 56-8i]` (R14). -/
def be64bytes (v : DWord) : BytesN 8 := Vector.ofFn fun i => v.extractLsb' (56 - 8 * i.val) 8

/-- `le64bytes`: byte `i` is `v[8i+7 : 8i]` (R14). -/
def le64bytes (v : DWord) : BytesN 8 := Vector.ofFn fun i => v.extractLsb' (8 * i.val) 8

/-- Bytes `4j .. 4j+4` of a byte string of `4 n` bytes, for a word index `j` (R144, R172, R187). -/
def bytes4At {n : Nat} (b : BytesN (4 * n)) (j : Fin n) : BytesN 4 :=
  Vector.ofFn fun i => b[4 * j.val + i.val]

/-- `rotl(x, n)` (R13). -/
def rotl (x : Word) (n : Nat) : Word := x.rotateLeft n

end Sys2Proof.Machine
end

