-- ==== Sys2Proof/Machine/Ops.lean ====
section
/-! DEFINITION. The shared operations of the machine: the block-buffer primitives `MemRead` and `MemWrite` (spec
00_scope.md R15, 20_memory.md R52), writing a unit's registers, giving a response, taking an exception (`raise`:
60_exceptions.md R235, R236) and the only way out of the latched state, the reset event (R240, R260). -/

namespace Sys2Proof.Machine

/-- The byte at one offset of a block buffer; none where nothing has been written. -/
def Memory.read : Memory → Nat → Option Byte
  | [], _ => none
  | (k, b) :: m, a => if k = a then some b else Memory.read m a

/-- Store one byte, keeping offsets strictly rising. -/
def Memory.write : Memory → Nat → Byte → Memory
  | [], a, b => [(a, b)]
  | (k, c) :: m, a, b =>
    if a < k then (a, b) :: (k, c) :: m
    else if a = k then (a, b) :: m
    else (k, c) :: Memory.write m a b

/-- Store a byte string from offset `a` up. -/
def Memory.writeBytes : Memory → Nat → Bytes → Memory
  | m, _, [] => m
  | m, a, b :: bs => Memory.writeBytes (m.write a b) (a + 1) bs

/-- `MemWrite(a, n, v)` with `n = len(v)`; it requires `a + n <= 64` (R15, R52). -/
def memWrite (m : Memory) (a : Nat) (v : Bytes) : Except Fault Memory :=
  if a + v.length ≤ bufSize then .ok (m.writeBytes a v) else .error .bufferOffset

/-- `MemRead(a, n)`: the bytes at offsets `a .. a+n`; it requires `a + n <= 64` (R15, R52), and that they have been
written (R28). -/
def memRead (m : Memory) (a n : Nat) : Except Fault (BytesN n) :=
  if a + n ≤ bufSize then
    if h : ∀ i : Fin n, (m.read (a + i.val)).isSome = true then
      .ok (Vector.ofFn fun i => (m.read (a + i.val)).get (h i))
    else .error .bufferUnwritten
  else .error .bufferOffset

/-- Write the SHA1 unit's registers. -/
def State.setSha1 (u : HashUnit 5) (s : State) : State := { s with sha1 := u }

/-- Write the MD4 unit's registers. -/
def State.setMd4 (u : HashUnit 4) (s : State) : State := { s with md4 := u }

/-- Write the PRNG unit's registers. -/
def State.setPrng (p : Prng) (s : State) : State := { s with prng := p }

/-- Count one more set of registers left unspecified, so that the next one's free values are fresh (log 6). -/
def State.bumpFree (s : State) : State := { s with freeCount := s.freeCount + 1 }

/-- Give the one response of the command at the head of the queue, which is thereby complete (R70, R80). -/
def State.respond (r : Response) (s : State) : State :=
  { s with pending := s.pending.tail, responses := s.responses ++ [r] }

/-- `return (OK, v)` (R15). -/
def State.ok (r : Result) (s : State) : State := s.respond ⟨.ok, r⟩

/-- `raise Status` (R15): end the command with a non-`OK` status. No result is returned and no state is written but
the latch, and that only for a fatal status (R235, R236, R241). The value `raise` records is diagnostic and is not
kept (R231; assumption log 13). -/
def State.raise (st : Status) (s : State) : State :=
  (if st.fatal then s.latch st else s).respond ⟨st, .none⟩

/-- The reset event, the only return from the latched state (R240, R260): the values of R40. What the host has yet to
do and what it has been answered are the host's, and stay; so does the count behind the free values (logs 6, 7). -/
def State.resetEvent (s : State) : State :=
  { State.reset with pending := s.pending.tail, responses := s.responses, freeCount := s.freeCount }

end Sys2Proof.Machine
end

