-- ==== Sys2Proof/Machine/HashShell.lean ====
section
/-! DEFINITION. The Merkle-Damgard shell that the two hash units share (spec 42_hash_engine.md R140 to R149), over the
entries in which they differ. -/

namespace Sys2Proof.Machine

/-- The rows of R140's table in which the two units differ. `DLEN(U)` is `4 * nw`. -/
structure HashAlg (nw : Nat) where
  /-- `IV_U`, the initial chaining value. -/
  iv : Vector Word nw
  /-- `WB_U`, word to bytes. -/
  wordBytes : Word → BytesN 4
  /-- `BW_U`, bytes to word. -/
  bytesWord : BytesN 4 → Word
  /-- `LB_U`, the encoding of the length field. -/
  lenBytes : DWord → BytesN 8
  /-- `Compress_U(H, block)`. -/
  compress : Vector Word nw → BytesN 64 → Vector Word nw

/-- A context is live in the phases `INIT` and `UPDATING` (R141). -/
def HashPhase.live : HashPhase → Bool
  | .init | .updating => true
  | .idle | .finalized => false

/-- The words a digest stands for: `H[i] = BW_U(digest[4i .. 4i+4))` (R144). -/
def digestWords {nw : Nat} (alg : HashAlg nw) (digest : BytesN (4 * nw)) : Vector Word nw :=
  Vector.ofFn fun i => alg.bytesWord (bytes4At digest i)

/-- The digest of chaining words: `WB_U(H[0]) ‖ ... ‖ WB_U(H[NW(U)-1])` (R147). -/
def wordsDigest {nw : Nat} (alg : HashAlg nw) (h : Vector Word nw) : Bytes :=
  h.toList.flatMap fun w => (alg.wordBytes w).toList

/-- `HashInit(U)`; `BUF` is not written (R142). -/
def hashInit {nw : Nat} (alg : HashAlg nw) (u : HashUnit nw) : HashUnit nw :=
  { u with h := alg.iv, fill := 0, total := 0, phase := .init }

/-- `HashInitState(U, digest, consumed)`; any `consumed` is taken as given (R144, D16). -/
def hashInitState {nw : Nat} (alg : HashAlg nw) (u : HashUnit nw) (digest : BytesN (4 * nw)) (consumed : DWord) :
    HashUnit nw :=
  { u with h := digestWords alg digest, fill := 0, total := consumed, phase := .init }

/-- `Push(U, b)`: store a byte at `FILL`, and compress when the buffer is full (R143). -/
def push {nw : Nat} (alg : HashAlg nw) (u : HashUnit nw) (b : Byte) : Except Fault (HashUnit nw) :=
  match memWrite u.buf u.fill [b] with
  | .error e => .error e
  | .ok buf =>
    if u.fill + 1 = bufSize then
      match memRead buf 0 64 with
      | .error e => .error e
      | .ok block => .ok { u with h := alg.compress u.h block, buf := buf, fill := 0 }
    else .ok { u with buf := buf, fill := u.fill + 1 }

/-- `Push` over a byte string, in index order (R145). -/
def pushAll {nw : Nat} (alg : HashAlg nw) : HashUnit nw → Bytes → Except Fault (HashUnit nw)
  | u, [] => .ok u
  | u, b :: bs =>
    match push alg u b with
    | .error e => .error e
    | .ok u' => pushAll alg u' bs

/-- `HashUpdate(U, data)` (R145); `TOTAL` adds the length modulo 2^64 (R146). -/
def hashUpdate {nw : Nat} (alg : HashAlg nw) (u : HashUnit nw) (data : Bytes) : Except Fault (HashUnit nw) :=
  match pushAll alg u data with
  | .error e => .error e
  | .ok u' => .ok { u' with total := u'.total + BitVec.ofNat 64 data.length, phase := .updating }

/-- `BITLEN` of a byte count, modulo 2^64 (R146). -/
def bitLen (total : DWord) : DWord := total * 8

/-- The zero fill of R147, `while U.FILL != 56: Push(U, 0x00)`, with a bound on the number of turns. From a `FILL` of
0..63 the loop ends within 63 turns. -/
def zeroFill {nw : Nat} (alg : HashAlg nw) : Nat → HashUnit nw → Except Fault (HashUnit nw)
  | 0, u => .ok u
  | turns + 1, u =>
    if u.fill = 56 then .ok u
    else match push alg u 0 with
      | .error e => .error e
      | .ok u' => zeroFill alg turns u'

/-- The padding pushes of `HashFinish(U)`: the marker, the zero fill driven by `FILL`, the length field taken from
`TOTAL` before any padding byte is pushed (R147, D16). -/
def pushPadding {nw : Nat} (alg : HashAlg nw) (u : HashUnit nw) : Except Fault (HashUnit nw) :=
  match push alg u 0x80 with
  | .error e => .error e
  | .ok u1 =>
    match zeroFill alg 64 u1 with
    | .error e => .error e
    | .ok u2 => pushAll alg u2 (alg.lenBytes (bitLen u.total)).toList

/-- What a unit's registers hold after `HashFinish`: `PHASE = FINALIZED`, and every other register unspecified (R31,
R147), so each is a free value, the `n`-th one (assumption log 6). -/
def finalizedUnit (nw n : Nat) : HashUnit nw :=
  { h := Vector.ofFn fun i => Config.freeWord n i.val
    buf := (List.range bufSize).map fun a => (a, Config.freeByte n a)
    fill := (Config.freeFill n).val
    total := Config.freeTotal n
    phase := .finalized }

/-- `HashFinish(U)`: the digest it returns (R147). -/
def hashFinish {nw : Nat} (alg : HashAlg nw) (u : HashUnit nw) : Except Fault Bytes :=
  match pushPadding alg u with
  | .error e => .error e
  | .ok u' => .ok (wordsDigest alg u'.h)

/-- `PadBytes(U, L)`: a pure function of a `u64` length (R148). -/
def padBytes {nw : Nat} (alg : HashAlg nw) (length : DWord) : Bytes :=
  [0x80] ++ rep 0 ((55 + 64 - length.toNat % 64) % 64) ++ (alg.lenBytes (bitLen length)).toList

end Sys2Proof.Machine
end

