-- ==== Sys2Proof/Machine/Md4.lean ====
section
/-! DEFINITION. The MD4 unit: the compression function (spec 44_md4_compress.md) and the five `MD4_` commands
(42_hash_engine.md R155 to R159). The constants are the spec's, which marks them as general knowledge (G2; assumption
log 12). -/

namespace Sys2Proof.Machine

/-- The three round functions of R188: choose, majority, parity. -/
inductive Md4Fn where
  | f | g | h
deriving DecidableEq, Repr

/-- One row of the step table of R190: schedule index `k_s`, rotation `r_s`, round function. -/
structure Md4Row where
  k : Fin 16
  r : Nat
  fn : Md4Fn
deriving DecidableEq, Repr

/-- `IV_MD4` (R186). -/
def md4Iv : Vector Word 4 := #v[0x67452301, 0xEFCDAB89, 0x98BADCFE, 0x10325476]

/-- Schedule load: `X[j] = le32(block[4j .. 4j+4))` (R187, 20_memory.md R55). -/
def md4Load (block : BytesN 64) : Vector Word 16 :=
  Vector.ofFn fun j => le32 (bytes4At (n := 16) block j)

/-- `g(x, y, z)` (R188). -/
def Md4Fn.apply : Md4Fn → Word → Word → Word → Word
  | .f, x, y, z => (x &&& y) ||| (~~~x &&& z)
  | .g, x, y, z => (x &&& y) ||| (x &&& z) ||| (y &&& z)
  | .h, x, y, z => x ^^^ y ^^^ z

/-- The additive constant `T` (R188). -/
def Md4Fn.constant : Md4Fn → Word
  | .f => 0x00000000
  | .g => 0x5A827999
  | .h => 0x6ED9EBA1

/-- The 48 rows of R190, in step order. -/
def md4Table : List Md4Row :=
  [⟨0, 3, .f⟩, ⟨1, 7, .f⟩, ⟨2, 11, .f⟩, ⟨3, 19, .f⟩, ⟨4, 3, .f⟩, ⟨5, 7, .f⟩, ⟨6, 11, .f⟩, ⟨7, 19, .f⟩,
   ⟨8, 3, .f⟩, ⟨9, 7, .f⟩, ⟨10, 11, .f⟩, ⟨11, 19, .f⟩, ⟨12, 3, .f⟩, ⟨13, 7, .f⟩, ⟨14, 11, .f⟩, ⟨15, 19, .f⟩] ++
  [⟨0, 3, .g⟩, ⟨4, 5, .g⟩, ⟨8, 9, .g⟩, ⟨12, 13, .g⟩, ⟨1, 3, .g⟩, ⟨5, 5, .g⟩, ⟨9, 9, .g⟩, ⟨13, 13, .g⟩,
   ⟨2, 3, .g⟩, ⟨6, 5, .g⟩, ⟨10, 9, .g⟩, ⟨14, 13, .g⟩, ⟨3, 3, .g⟩, ⟨7, 5, .g⟩, ⟨11, 9, .g⟩, ⟨15, 13, .g⟩] ++
  [⟨0, 3, .h⟩, ⟨8, 9, .h⟩, ⟨4, 11, .h⟩, ⟨12, 15, .h⟩, ⟨2, 3, .h⟩, ⟨10, 9, .h⟩, ⟨6, 11, .h⟩, ⟨14, 15, .h⟩,
   ⟨1, 3, .h⟩, ⟨9, 9, .h⟩, ⟨5, 11, .h⟩, ⟨13, 15, .h⟩, ⟨3, 3, .h⟩, ⟨11, 9, .h⟩, ⟨7, 11, .h⟩, ⟨15, 15, .h⟩]

/-- Step `s`: the target `v[t]`, `t = (4 - (s mod 4)) mod 4`, from the other three in cyclic order after it (R189). -/
def md4Step (x : Vector Word 16) (v : Vector Word 4) (s : Nat) (row : Md4Row) : Vector Word 4 :=
  let t : Fin 4 := ⟨(4 - s % 4) % 4, Nat.mod_lt _ (by decide)⟩
  v.set t.val
    (rotl (v[t] + row.fn.apply v[t + 1] v[t + 2] v[t + 3] + x[row.k] + row.fn.constant) row.r) t.isLt

/-- The steps of a table's rows, numbered from `s` up, in increasing order (R189). -/
def md4Steps (x : Vector Word 16) : Nat → List Md4Row → Vector Word 4 → Vector Word 4
  | _, [], v => v
  | s, row :: rows, v => md4Steps x (s + 1) rows (md4Step x v s row)

/-- `Compress_MD4(H, block)` (R185), with the final addition of R192. -/
def md4Compress (h : Vector Word 4) (block : BytesN 64) : Vector Word 4 :=
  let v := md4Steps (md4Load block) 0 md4Table h
  #v[h[0] + v[0], h[1] + v[1], h[2] + v[2], h[3] + v[3]]

/-- The MD4 column of R140: little-endian throughout (20_memory.md R55). -/
def md4Alg : HashAlg 4 :=
  { iv := md4Iv, wordBytes := le32bytes, bytesWord := le32, lenBytes := le64bytes, compress := md4Compress }

/-- `MD4_INIT` (R155): accepted in every phase. -/
def execMd4Init (s : State) : Host.Outcome State Fault Refusal :=
  .next ((s.setMd4 (hashInit md4Alg s.md4)).ok .none)

/-- `MD4_INIT_STATE digest, consumed` (R156): accepted in every phase. -/
def execMd4InitState (digest : BytesN 16) (consumed : DWord) (s : State) : Host.Outcome State Fault Refusal :=
  .next ((s.setMd4 (hashInitState md4Alg s.md4 digest consumed)).ok .none)

/-- `MD4_UPDATE data` (R157). -/
def execMd4Update (data : Bytes) (s : State) : Host.Outcome State Fault Refusal :=
  if s.md4.phase.live then
    match hashUpdate md4Alg s.md4 data with
    | .ok u => .next ((s.setMd4 u).ok .none)
    | .error e => .fault e
  else .next (s.raise .badPhase)

/-- `MD4_FINISH` (R158): the digest, and a finalized unit with its other registers unspecified. -/
def execMd4Finish (s : State) : Host.Outcome State Fault Refusal :=
  if s.md4.phase.live then
    match hashFinish md4Alg s.md4 with
    | .ok d => .next (((s.setMd4 (finalizedUnit 4 s.freeCount)).bumpFree).ok (.bytes d))
    | .error e => .fault e
  else .next (s.raise .badPhase)

/-- `MD4_PADDING length` (R159): no state is read or written. -/
def execMd4Padding (length : DWord) (s : State) : Host.Outcome State Fault Refusal :=
  .next (s.ok (.bytes (padBytes md4Alg length)))

end Sys2Proof.Machine
end

