-- ==== Sys2Proof/Machine/Pkcs7.lean ====
section
/-! DEFINITION. The PKCS7 unit: validity checker, padder, lenient and strict stripper (spec 40_pkcs7.md). The unit
holds no state (10_state.md R25). -/

namespace Sys2Proof.Machine

/-- The validity function `PadLen(N, B)` (R91): `some v` when the last `v` bytes all equal `v`, `1 <= v <= N`. The
bytes before them are not examined (R92, conflict C1). -/
def padLen (n : Nat) (b : Bytes) : Option Nat :=
  match b.getLast? with
  | none => none
  | some last =>
    let v := last.toNat
    if v < 1 then none
    else if v > n then none
    else if v > b.length then none
    else if (b.drop (b.length - v)).all (fun x => x == last) then some v
    else none

/-- `bytes` followed by `N - len` copies of that same count (R94); meant for `len(b) <= n`. -/
def padTo (n : Nat) (b : Bytes) : Bytes := b ++ rep (BitVec.ofNat 8 (n - b.length)) (n - b.length)

/-- The lenient strip: the stripped prefix on valid padding, else the bytes unchanged (R95). -/
def stripLenient (n : Nat) (b : Bytes) : Bytes :=
  match padLen n b with
  | some v => b.take (b.length - v)
  | none => b

/-- `PKCS7_PAD<N> data` (R94). -/
def execPkcs7Pad (n : Nat) (data : Bytes) (s : State) : Host.Outcome State Fault Refusal :=
  if data.length > n then .next (s.raise .oversizedBlock)
  else .next (s.ok (.bytes (padTo n data)))

/-- `PKCS7_STRIP<N> data`: never fails (R95). -/
def execPkcs7Strip (n : Nat) (data : Bytes) (s : State) : Host.Outcome State Fault Refusal :=
  .next (s.ok (.bytes (stripLenient n data)))

/-- `PKCS7_TRY_STRIP<N> data` (R96): the stripped prefix, or the recoverable `InvalidPadding` with no data (D25). -/
def execPkcs7TryStrip (n : Nat) (data : Bytes) (s : State) : Host.Outcome State Fault Refusal :=
  match padLen n data with
  | some v => .next (s.ok (.bytes (data.take (data.length - v))))
  | none => .next (s.raise .invalidPadding)

end Sys2Proof.Machine
end

