-- ==== Sys2Proof/Machine/Modes.lean ====
section
/-! DEFINITION. The MODES unit: ECB, CBC and CTR over the external cipher (spec 41_block_modes.md). The sequencers are
pure functions of the data and of one key's `CIPH_ENC` or `CIPH_DEC`, taken as an argument (10_state.md R26); the unit
keeps no state between commands. -/

namespace Sys2Proof.Machine

/-- `Pad16` (R99). -/
def pad16 (b : Bytes) : Bytes := padTo 16 b

/-- `Strip16` (R99). -/
def strip16 (b : Bytes) : Bytes := stripLenient 16 b

/-- The first `m` whole blocks of `data`: block `i` is `data[16i .. 16i+16)` (R112, R113). -/
def fullBlocks (data : Bytes) (m : Nat) : List Block :=
  (List.range m).filterMap fun i => bytesN? 16 (slice data (16 * i) (16 * i + 16))

/-- The encrypt-side chunker: the whole blocks, then the final chunk, always padded (R112, conflict C2). -/
def chunks (data : Bytes) : List Block :=
  fullBlocks data (data.length / 16) ++
    (bytesN? 16 (pad16 (slice data (16 * (data.length / 16)) data.length))).toList

/-- Frame assembly: the blocks in index order (R113). -/
def frame (bs : List Block) : Bytes := bs.flatMap fun b => b.toList

/-- `ECB_ENC` on a key's `CIPH_ENC` (R114). -/
def ecbEncrypt (enc : Block → Block) (data : Bytes) : Bytes := frame ((chunks data).map enc)

/-- `ECB_DEC` on a key's `CIPH_DEC`, for an aligned ciphertext (R115). -/
def ecbDecrypt (dec : Block → Block) (data : Bytes) : Bytes :=
  strip16 (frame ((fullBlocks data (data.length / 16)).map dec))

/-- The CBC encrypt chain: `C_i = CIPH_ENC(P_i xor CHAIN)`, then `CHAIN = C_i` (R116, R117). -/
def cbcEncBlocks (enc : Block → Block) : Block → List Block → List Block
  | _, [] => []
  | chain, p :: ps =>
    let c := enc (xorN p chain)
    c :: cbcEncBlocks enc c ps

/-- The CBC decrypt chain: `P_i = CIPH_DEC(C_i) xor CHAIN`, then `CHAIN = C_i` (R116, R118). -/
def cbcDecBlocks (dec : Block → Block) : Block → List Block → List Block
  | _, [] => []
  | chain, c :: cs => xorN (dec c) chain :: cbcDecBlocks dec c cs

/-- `CBC_ENC` on a key's `CIPH_ENC` (R117). -/
def cbcEncrypt (enc : Block → Block) (iv : Block) (data : Bytes) : Bytes := frame (cbcEncBlocks enc iv (chunks data))

/-- `CBC_DEC` on a key's `CIPH_DEC`, for an aligned ciphertext (R118). -/
def cbcDecrypt (dec : Block → Block) (iv : Block) (data : Bytes) : Bytes :=
  strip16 (frame (cbcDecBlocks dec iv (fullBlocks data (data.length / 16))))

/-- The cipher input for counter value `i`: the nonce as given, then the counter modulo 2^64, least significant byte
first (20_memory.md R56, R122, R127). -/
def ctrBlock (nonce : BytesN 8) (i : Nat) : Block := nonce ++ le64bytes (BitVec.ofNat 64 i)

/-- `KS_i` (R122). -/
def keystream (enc : Block → Block) (nonce : BytesN 8) (i : Nat) : Block := enc (ctrBlock nonce i)

/-- `CTR_XFORM` on a key's `CIPH_ENC`: byte `j` is XORed with byte `j mod 16` of keystream block `floor(j / 16)`; the
counter starts at 0 in every command (R123 to R125). -/
def ctrTransform (enc : Block → Block) (nonce : BytesN 8) (data : Bytes) : Bytes :=
  data.mapIdx fun j d => d ^^^ (keystream enc nonce (j / 16))[j % 16]'(Nat.mod_lt j (by decide))

/-- `ECB_ENC key, data` (R114). -/
def execEcbEnc (key data : Bytes) (s : State) : Host.Outcome State Fault Refusal :=
  match bytesN? 16 key with
  | none => .next (s.raise .invalidKeyLength)
  | some k => .next (s.ok (.bytes (ecbEncrypt (Config.ciphEnc k) data)))

/-- `ECB_DEC key, data` (R115): the key check before the alignment check (R238). -/
def execEcbDec (key data : Bytes) (s : State) : Host.Outcome State Fault Refusal :=
  match bytesN? 16 key with
  | none => .next (s.raise .invalidKeyLength)
  | some k =>
    if data.length % 16 ≠ 0 then .next (s.raise .misalignedCiphertext)
    else .next (s.ok (.bytes (ecbDecrypt (Config.ciphDec k) data)))

/-- `CBC_ENC key, iv, data` (R117). -/
def execCbcEnc (key : Bytes) (iv : Block) (data : Bytes) (s : State) : Host.Outcome State Fault Refusal :=
  match bytesN? 16 key with
  | none => .next (s.raise .invalidKeyLength)
  | some k => .next (s.ok (.bytes (cbcEncrypt (Config.ciphEnc k) iv data)))

/-- `CBC_DEC key, iv, data` (R118): the key check before the alignment check (R238). -/
def execCbcDec (key : Bytes) (iv : Block) (data : Bytes) (s : State) : Host.Outcome State Fault Refusal :=
  match bytesN? 16 key with
  | none => .next (s.raise .invalidKeyLength)
  | some k =>
    if data.length % 16 ≠ 0 then .next (s.raise .misalignedCiphertext)
    else .next (s.ok (.bytes (cbcDecrypt (Config.ciphDec k) iv data)))

/-- `CTR_XFORM key, nonce, data` (R125): only `CIPH_ENC`, and the key check even for empty data (D11). -/
def execCtrXform (key : Bytes) (nonce : BytesN 8) (data : Bytes) (s : State) : Host.Outcome State Fault Refusal :=
  match bytesN? 16 key with
  | none => .next (s.raise .invalidKeyLength)
  | some k => .next (s.ok (.bytes (ctrTransform (Config.ciphEnc k) nonce data)))

end Sys2Proof.Machine
end

