-- ==== Sys2Proof/Machine/PrngUnit.lean ====
section
/-! DEFINITION. The PRNG unit: the MT19937 generator and the two shift-XOR inversions (spec 45_prng_mt19937.md). The
constants are the spec's, which marks them as general knowledge (G3; assumption log 12). -/

namespace Sys2Proof.Machine

/-- The seeding recurrence of R202: the `n` words `T[i], T[i+1], ...`, given `T[i] = t`. -/
def seedWords : (n i : Nat) → (t : Word) → List Word
  | 0, _, _ => []
  | n + 1, i, t => t :: seedWords n (i + 1) (0x6C078965 * (t ^^^ (t >>> 30)) + BitVec.ofNat 32 (i + 1))

theorem seedWords_length (n i : Nat) (t : Word) : (seedWords n i t).length = n := by
  induction n generalizing i t with
  | zero => rfl
  | succ n ih => simp [seedWords, ih]

/-- `SeedExpand(seed)`: `T[0] = seed` (R202). -/
def seedExpand (seed : Word) : MtWords := ⟨⟨seedWords 624 0 seed⟩, seedWords_length 624 0 seed⟩

/-- Index `i` of the twist: bit 31 of `S[i]` with bits 30:0 of its neighbour, mixed into the word 397 places ahead, and
written in place (R204). -/
def twistAt (s : MtWords) (i : Fin 624) : MtWords :=
  let y := (s[i] &&& 0x80000000) ||| (s[(i.val + 1) % 624]'(Nat.mod_lt _ (by decide)) &&& 0x7FFFFFFF)
  let v := s[(i.val + 397) % 624]'(Nat.mod_lt _ (by decide)) ^^^ (y >>> 1)
  s.set i.val (if y &&& 1 = 1 then v ^^^ 0x9908B0DF else v) i.isLt

/-- `Twist()`: in place, in ascending order of the index (R204, D18). -/
def twist (s : MtWords) : MtWords := (List.finRange 624).foldl twistAt s

/-- The right primitive `RS(x, s) = x ^ (x >> s)` (R205). -/
def shiftXorRight (x : Word) (n : Nat) : Word := x ^^^ (x >>> n)

/-- The left primitive `LS(x, s, m) = x ^ ((x << s) & m)` (R205). -/
def shiftXorLeft (x : Word) (n : Nat) (m : Word) : Word := x ^^^ ((x <<< n) &&& m)

/-- `Temper(x)`, its four steps in order (R205). -/
def temper (x : Word) : Word :=
  shiftXorRight (shiftXorLeft (shiftXorLeft (shiftXorRight x 11) 7 0x9D2C5680) 15 0xEFC60000) 18

/-- The body of `MT_NEXT` on a seeded generator: twist when the cursor is at 624, temper the word at the cursor,
advance it (R207). None where the cursor is above 624, against R35. -/
def mtAdvance (p : Prng) : Option (Prng × Word) :=
  let q : Prng := if p.cur = 624 then { p with s := twist p.s, cur := 0 } else p
  if h : q.cur < 624 then some ({ q with cur := q.cur + 1 }, temper (q.s[q.cur]'h)) else none

/-- Bit `i` of the word given as a Bool, at its place. -/
def bitAt (i : Nat) (b : Bool) : Word := if b then BitVec.twoPow 32 i else 0

/-- Top-down recovery of the bits below `n`, the bits from `n` up being known (R209). -/
def invRightFrom (shift : Nat) (y : Word) : (n : Nat) → (x : Word) → Word
  | 0, x => x
  | i + 1, x =>
    invRightFrom shift y i
      (x ||| bitAt i (if i + shift > 31 then y.getLsbD i else y.getLsbD i ^^ x.getLsbD (i + shift)))

/-- `invert_right_shift(y, shift)` (R209). -/
def invertRightShift (y : Word) (shift : Nat) : Word := invRightFrom shift y 32 0

/-- Bottom-up recovery of the `n` bits from bit `i` up, the bits below `i` being known (R210). -/
def invLeftFrom (shift : Nat) (y mask : Word) : (n i : Nat) → (x : Word) → Word
  | 0, _, x => x
  | n + 1, i, x =>
    invLeftFrom shift y mask n (i + 1)
      (x ||| bitAt i (if i < shift then y.getLsbD i else y.getLsbD i ^^ (x.getLsbD (i - shift) && mask.getLsbD i)))

/-- `invert_left_shift(y, shift, mask)` (R210). -/
def invertLeftShift (y : Word) (shift : Nat) (mask : Word) : Word := invLeftFrom shift y mask 32 0 0

/-- `MT_NEW seed` (R203). -/
def execMtNew (seed : Word) (s : State) : Host.Outcome State Fault Refusal :=
  .next ((s.setPrng { s := seedExpand seed, cur := 624, phase := .seeded }).ok .none)

/-- `MT_FROM state` (R206): the words as they are, and a cursor that forces a twist. -/
def execMtFrom (words : MtWords) (s : State) : Host.Outcome State Fault Refusal :=
  .next ((s.setPrng { s := words, cur := 624, phase := .seeded }).ok .none)

/-- `MT_NEXT` (R207). -/
def execMtNext (s : State) : Host.Outcome State Fault Refusal :=
  match s.prng.phase with
  | .idle => .next (s.raise .badPhase)
  | .seeded =>
    match mtAdvance s.prng with
    | some (p, out) => .next ((s.setPrng p).ok (.word out))
    | none => .fault .cursorRange

/-- `MT_INV_RSHIFT<shift> y` (R209): no state is read or written. -/
def execMtInvRshift (shift : Nat) (y : Word) (s : State) : Host.Outcome State Fault Refusal :=
  .next (s.ok (.word (invertRightShift y shift)))

/-- `MT_INV_LSHIFT<shift> y, mask` (R210): no state is read or written. -/
def execMtInvLshift (shift : Nat) (y mask : Word) (s : State) : Host.Outcome State Fault Refusal :=
  .next (s.ok (.word (invertLeftShift y shift mask)))

end Sys2Proof.Machine
end

