-- ==== Sys2Proof/Machine/Sha1.lean ====
section
/-! DEFINITION. The SHA1 unit: the compression function (spec 43_sha1_compress.md) and the five `SHA1_` commands
(42_hash_engine.md R150 to R154). The constants are the spec's, which marks them as general knowledge (G1; assumption
log 12). -/

namespace Sys2Proof.Machine

/-- The working words `a..e` of a compression (R175). -/
structure Sha1Vars where
  a : Word
  b : Word
  c : Word
  d : Word
  e : Word
deriving DecidableEq, Repr

/-- `IV_SHA1` (R171). -/
def sha1Iv : Vector Word 5 := #v[0x67452301, 0xEFCDAB89, 0x98BADCFE, 0x10325476, 0xC3D2E1F0]

/-- Schedule load: `w[j] = be32(block[4j .. 4j+4))` (R172, 20_memory.md R54). -/
def sha1Load (block : BytesN 64) : Vector Word 16 :=
  Vector.ofFn fun j => be32 (bytes4At (n := 16) block j)

/-- Schedule expansion by `k` words: `w[i] = rotl(w[i-3] ^ w[i-8] ^ w[i-14] ^ w[i-16], 1)` (R173). -/
def sha1Expand (w0 : Vector Word 16) : (k : Nat) → Vector Word (16 + k)
  | 0 => w0
  | k + 1 =>
    let w := sha1Expand w0 k
    w.push (rotl (w[16 + k - 3] ^^^ w[16 + k - 8] ^^^ w[16 + k - 14] ^^^ w[16 + k - 16]) 1)

/-- The schedule `w[0..79]` of a block (R172, R173). -/
def sha1Schedule (block : BytesN 64) : Vector Word 80 := sha1Expand (sha1Load block) 64

/-- `f_i(b, c, d)`: choose, parity, majority, parity, one for each round of 20 steps (R174). -/
def sha1F (i : Nat) (b c d : Word) : Word :=
  match i / 20 with
  | 0 => (b &&& c) ||| (~~~b &&& d)
  | 1 => b ^^^ c ^^^ d
  | 2 => (b &&& c) ||| (b &&& d) ||| (c &&& d)
  | _ => b ^^^ c ^^^ d

/-- `K_i` (R174). -/
def sha1K (i : Nat) : Word :=
  match i / 20 with
  | 0 => 0x5A827999
  | 1 => 0x6ED9EBA1
  | 2 => 0x8F1BBCDC
  | _ => 0xCA62C1D6

/-- Step `i`, a simultaneous update of the working words (R175). -/
def sha1Step (w : Vector Word 80) (v : Sha1Vars) (i : Fin 80) : Sha1Vars :=
  { a := rotl v.a 5 + sha1F i.val v.b v.c v.d + v.e + sha1K i.val + w[i]
    b := v.a
    c := rotl v.b 30
    d := v.c
    e := v.d }

/-- The working words a compression starts from: `a = H[0]`, ..., `e = H[4]` (R175). -/
def sha1Start (h : Vector Word 5) : Sha1Vars := { a := h[0], b := h[1], c := h[2], d := h[3], e := h[4] }

/-- Steps 0 to 79 in this order (R175, R177). -/
def sha1Rounds (w : Vector Word 80) (v : Sha1Vars) : Sha1Vars := (List.finRange 80).foldl (sha1Step w) v

/-- `Compress_SHA1(H, block)` (R170), with the final addition of R176. -/
def sha1Compress (h : Vector Word 5) (block : BytesN 64) : Vector Word 5 :=
  let v := sha1Rounds (sha1Schedule block) (sha1Start h)
  #v[h[0] + v.a, h[1] + v.b, h[2] + v.c, h[3] + v.d, h[4] + v.e]

/-- The SHA1 column of R140: big-endian throughout (20_memory.md R54). -/
def sha1Alg : HashAlg 5 :=
  { iv := sha1Iv, wordBytes := be32bytes, bytesWord := be32, lenBytes := be64bytes, compress := sha1Compress }

/-- `SHA1_INIT` (R150): accepted in every phase. -/
def execSha1Init (s : State) : Host.Outcome State Fault Refusal :=
  .next ((s.setSha1 (hashInit sha1Alg s.sha1)).ok .none)

/-- `SHA1_INIT_STATE digest, consumed` (R151): accepted in every phase. -/
def execSha1InitState (digest : BytesN 20) (consumed : DWord) (s : State) : Host.Outcome State Fault Refusal :=
  .next ((s.setSha1 (hashInitState sha1Alg s.sha1 digest consumed)).ok .none)

/-- `SHA1_UPDATE data` (R152). -/
def execSha1Update (data : Bytes) (s : State) : Host.Outcome State Fault Refusal :=
  if s.sha1.phase.live then
    match hashUpdate sha1Alg s.sha1 data with
    | .ok u => .next ((s.setSha1 u).ok .none)
    | .error e => .fault e
  else .next (s.raise .badPhase)

/-- `SHA1_FINISH` (R153): the digest, and a finalized unit with its other registers unspecified. -/
def execSha1Finish (s : State) : Host.Outcome State Fault Refusal :=
  if s.sha1.phase.live then
    match hashFinish sha1Alg s.sha1 with
    | .ok d => .next (((s.setSha1 (finalizedUnit 5 s.freeCount)).bumpFree).ok (.bytes d))
    | .error e => .fault e
  else .next (s.raise .badPhase)

/-- `SHA1_PADDING length` (R154): no state is read or written. -/
def execSha1Padding (length : DWord) (s : State) : Host.Outcome State Fault Refusal :=
  .next (s.ok (.bytes (padBytes sha1Alg length)))

end Sys2Proof.Machine
end

