-- ==== Sys2Proof/Machine/Dispatch.lean ====
section
/-! DEFINITION. The dispatch of a decoded command to its rule (spec 30_encoding.md R81 step 4), one arm per row of the
opcode table. -/

namespace Sys2Proof.Machine

-- The pseudocode of each command's rule; the latch and the legality of the word are checked before it (R16, R81).
def exec (i : Instr) (s : State) : Host.Outcome State Fault Refusal :=
  match i with
  | .pkcs7Pad n data => Sys2Proof.Machine.execPkcs7Pad n data s
  | .pkcs7Strip n data => Sys2Proof.Machine.execPkcs7Strip n data s
  | .pkcs7TryStrip n data => Sys2Proof.Machine.execPkcs7TryStrip n data s
  | .ecbEnc key data => Sys2Proof.Machine.execEcbEnc key data s
  | .ecbDec key data => Sys2Proof.Machine.execEcbDec key data s
  | .cbcEnc key iv data => Sys2Proof.Machine.execCbcEnc key iv data s
  | .cbcDec key iv data => Sys2Proof.Machine.execCbcDec key iv data s
  | .ctrXform key nonce data => Sys2Proof.Machine.execCtrXform key nonce data s
  | .sha1Init => Sys2Proof.Machine.execSha1Init s
  | .sha1InitState digest consumed => Sys2Proof.Machine.execSha1InitState digest consumed s
  | .sha1Update data => Sys2Proof.Machine.execSha1Update data s
  | .sha1Finish => Sys2Proof.Machine.execSha1Finish s
  | .sha1Padding length => Sys2Proof.Machine.execSha1Padding length s
  | .md4Init => Sys2Proof.Machine.execMd4Init s
  | .md4InitState digest consumed => Sys2Proof.Machine.execMd4InitState digest consumed s
  | .md4Update data => Sys2Proof.Machine.execMd4Update data s
  | .md4Finish => Sys2Proof.Machine.execMd4Finish s
  | .md4Padding length => Sys2Proof.Machine.execMd4Padding length s
  | .mtNew seed => Sys2Proof.Machine.execMtNew seed s
  | .mtFrom words => Sys2Proof.Machine.execMtFrom words s
  | .mtNext => Sys2Proof.Machine.execMtNext s
  | .mtInvRshift shift y => Sys2Proof.Machine.execMtInvRshift shift y s
  | .mtInvLshift shift y mask => Sys2Proof.Machine.execMtInvLshift shift y mask s

end Sys2Proof.Machine
end

