-- ==== Sys2Proof/Machine/Issue.lean ====
section
/-! DEFINITION. What happens to the next thing the host does (spec 30_encoding.md R81, 60_exceptions.md R237, R238,
70_reset_and_hazards.md R260): the checks before a command's own rule, and the reset event. -/

namespace Sys2Proof.Machine

/-- A command word with its operands, by the decode procedure of R81: the latch before the word, the word before the
operands (R237, R238). -/
def issue (word : BitVec 32) (operands : List Operand) (s : State) : Host.Outcome State Fault Refusal :=
  if s.fault then .next (s.raise .faulted)
  else match decode word operands with
    | .error .illegal => .next (s.raise .illegalCommand)
    | .error .notPresentable => .refused .notPresentable
    | .ok i => exec i s

/-- The head of the queue. With nothing presented the CORE is idle and all state persists (R246, R277). -/
def nextEvent (s : State) : Host.Outcome State Fault Refusal :=
  match s.pending with
  | [] => .next s
  | .reset :: _ => .next s.resetEvent
  | .command word operands :: _ => issue word operands s

/-- The queue with a table word, its operands zero, put at the head. -/
def presentWord (s : State) (w : Nat) : State :=
  { s with pending := .command (BitVec.ofNat 32 w) (zeroOperands (BitVec.ofNat 32 w)) :: s.pending }

end Sys2Proof.Machine
end

