-- ==== Sys2Proof/Machine/Step.lean ====
section
/-! DEFINITION. One step of the machine: the next event of the host, to completion (spec 00_scope.md R8, 20_memory.md
R62). -/

namespace Sys2Proof.Machine

/-- One step: one command with its one response, or one reset event, or idling (R8, R62, R260, R277). -/
def step (s : State) : Host.Outcome State Fault Refusal := nextEvent s

/-- `s` with a command word of the opcode table presented next, its operands zero. Nothing else is touched
(assumption logs 1 and 17). -/
def State.withFetchWord (s : State) (_nbits w : Nat) : State := presentWord s w

end Sys2Proof.Machine
end

