-- ==== Sys2Proof/Safety.lean ====
section
/-! DEFINITION. The invariants the spec states of every state between commands, and what the host may present. -/

namespace Sys2Proof.Safety

open Sys2Proof.Machine

/-- The fault latch: clear with `FCODE = 0`, or set with a fatal code, 2 to 6 (spec 10_state.md R23, 60_exceptions.md
R230, R236). -/
abbrev LatchOk (s : State) : Prop :=
  (s.fault = false ∧ s.fcode = 0) ∨ (s.fault = true ∧ 2 ≤ s.fcode.toNat ∧ s.fcode.toNat ≤ 6)

/-- The bytes `BUF[0 .. FILL)` have been written (10_state.md R28). -/
abbrev Filled {nw : Nat} (u : HashUnit nw) : Prop := ∀ a < u.fill, (u.buf.read a).isSome = true

/-- A hash unit between commands: its buffer is in canonical form, `0 <= FILL <= 63` (10_state.md R32, R266), and a
live context has written its first `FILL` bytes (R28). -/
abbrev HashOk {nw : Nat} (u : HashUnit nw) : Prop :=
  u.buf.wf ∧ u.fill ≤ 63 ∧ (u.phase.live = true → Filled u)

/-- The generator between commands: the cursor is in 0..624, and in 1..624 once seeded (10_state.md R35). -/
abbrev PrngOk (p : Prng) : Prop := p.cur ≤ 624 ∧ (p.phase = .seeded → 1 ≤ p.cur)

/-- The invariant of the whole state. -/
abbrev CoreInv (s : State) : Prop := LatchOk s ∧ HashOk s.sha1 ∧ HashOk s.md4 ∧ PrngOk s.prng

/-- The unit's buffer holds exactly the byte string `b` as `BUF[0 .. FILL)`, fewer than 64 bytes (10_state.md R28,
R32). -/
abbrev Buffered {nw : Nat} (u : HashUnit nw) (b : Bytes) : Prop :=
  u.fill = b.length ∧ b.length < bufSize ∧ ∀ (a : Nat) (h : a < b.length), u.buf.read a = some b[a]

/-- `s` after a command that answered `OK` and wrote no register: the response, and the command taken from the queue
(00_scope.md R15, R70). -/
def answers (s : State) (r : Result) : State :=
  { s with pending := s.pending.tail, responses := s.responses ++ [⟨.ok, r⟩] }

/-- `s` after a command that ended with a fatal status of the given code: the latch, the response without a result,
and the command taken from the queue (60_exceptions.md R235, R236). -/
def traps (s : State) (st : Status) (code : BitVec 4) : State :=
  { s with fault := true, fcode := code, pending := s.pending.tail, responses := s.responses ++ [⟨st, .none⟩] }

/-- The rules of a list of commands, one after the other. -/
def execAll : List Instr → State → Host.Outcome State Fault Refusal
  | [], s => .next s
  | i :: is, s =>
    match exec i s with
    | .next t => execAll is t
    | .fault e => .fault e
    | .refused e => .refused e

/-- The byte string as blocks joined in order. -/
def joined {k : Nat} (bs : List (BytesN k)) : Bytes := bs.flatMap fun b => b.toList

/-- `B` ends in valid PKCS#7 padding of `v` bytes after the data `a` (40_pkcs7.md R91, R92). -/
abbrev PaddedWith (n : Nat) (b a : Bytes) (v : Nat) : Prop :=
  1 ≤ v ∧ v ≤ n ∧ b = a ++ List.replicate v (BitVec.ofNat 8 v)

/-- What the lenient strip makes of `b`: the data before valid padding, or `b` unchanged (40_pkcs7.md R95). -/
abbrev Stripped (n : Nat) (b out : Bytes) : Prop :=
  (∀ a v, PaddedWith n b a v → out = a) ∧ ((∀ a v, ¬ PaddedWith n b a v) → out = b)

/-- `P_0 ‖ ... ‖ P_q`: the data with the padding of its final chunk (41_block_modes.md R112, R120). -/
def paddedData (data : Bytes) : Bytes :=
  data ++ List.replicate (16 - data.length % 16) (BitVec.ofNat 8 (16 - data.length % 16))

/-- The law R9 states of a key's `CIPH_ENC` and `CIPH_DEC`: decryption undoes encryption, block by block. Only the round
trips need it (R9, 93_implementation_defined.md U6). -/
abbrev CiphLaw (enc dec : Block → Block) : Prop := ∀ b, dec (enc b) = b

/-- Block `i` of a byte string, `B[16i .. 16i+16)`, is the block `b`. -/
abbrev BlockAt (bytes : Bytes) (i : Nat) (b : Block) : Prop := b.toList = slice bytes (16 * i) (16 * i + 16)

/-- `u'` is the unit `u` after `HashUpdate(U, data)` (42_hash_engine.md R143, R145): the bytes held before, then the
data, are cut into 64-byte blocks, each block is compressed into `H` in order, and fewer than 64 bytes stay in the
buffer; `TOTAL` grows by the length modulo 2^64; offsets at which no byte was stored keep theirs. -/
abbrev Absorbs {nw : Nat} (alg : HashAlg nw) (u u' : HashUnit nw) (data : Bytes) : Prop :=
  (∃ (held rest : Bytes) (blocks : List (BytesN 64)), Buffered u held ∧ held ++ data = joined blocks ++ rest ∧
    Buffered u' rest ∧ u'.h = blocks.foldl alg.compress u.h) ∧
  u'.total = u.total + BitVec.ofNat 64 data.length ∧ u'.phase = .updating ∧
  ∀ a, (∀ j < data.length, a ≠ (u.fill + j) % 64) → u'.buf.read a = u.buf.read a

/-- `digest` is what `HashFinish(U)` returns for the unit `u` (42_hash_engine.md R147): the bytes held, the `0x80`
marker, `(55 - FILL) mod 64` zero bytes and the length field of `TOTAL` are whole blocks, and the digest is the
serialisation of `H` after they are compressed in order. -/
abbrev Digests {nw : Nat} (alg : HashAlg nw) (u : HashUnit nw) (digest : Bytes) : Prop :=
  ∃ (held : Bytes) (blocks : List (BytesN 64)), Buffered u held ∧
    held ++ [0x80] ++ List.replicate ((119 - u.fill) % 64) 0 ++ (alg.lenBytes (u.total * 8)).toList = joined blocks ∧
    digest = joined ((blocks.foldl alg.compress u.h).toList.map alg.wordBytes)

/-- The word the twist writes at one index, from the words it mixes: `S[i]`, its neighbour, and the word 397 places ahead
(45_prng_mt19937.md R204). -/
def twistWord (own neighbour far : Word) : Word :=
  let y := (own &&& 0x80000000) ||| (neighbour &&& 0x7FFFFFFF)
  far ^^^ (y >>> 1) ^^^ (if y.getLsbD 0 then 0x9908B0DF else 0)

/-- What kind of result a command has (30_encoding.md R72, the result column). -/
inductive ResultKind where
  | none | bytes | word
deriving DecidableEq, Repr

/-- The result column of R72. -/
def resultKind : Opcode → ResultKind
  | .pkcs7Pad | .pkcs7Strip | .pkcs7TryStrip => .bytes
  | .ecbEnc | .ecbDec | .cbcEnc | .cbcDec | .ctrXform => .bytes
  | .sha1Init | .sha1InitState | .sha1Update | .md4Init | .md4InitState | .md4Update => .none
  | .sha1Finish | .sha1Padding | .md4Finish | .md4Padding => .bytes
  | .mtNew | .mtFrom => .none
  | .mtNext | .mtInvRshift | .mtInvLshift => .word

/-- A result of the given kind. -/
def ResultKind.fits : ResultKind → Result → Bool
  | .none, .none => true
  | .bytes, .bytes _ => true
  | .word, .word _ => true
  | _, _ => false

/-- The commands that are pure functions of their immediate and operands (and of `CIPH`): 10_state.md R25, R26, R37. -/
def pureOpcodes : List Opcode :=
  [.pkcs7Pad, .pkcs7Strip, .pkcs7TryStrip, .ecbEnc, .ecbDec, .cbcEnc, .cbcDec, .ctrXform,
   .sha1Padding, .md4Padding, .mtInvRshift, .mtInvLshift]

/-- The unit of a command: the high nibble of its opcode number (30_encoding.md R72). -/
def unitNumber (o : Opcode) : Nat := o.number.toNat / 16

/-- One row of the mask and match form of the opcode table (30_encoding.md R76): the words it selects, and the range
R74 gives its `ARG` field. -/
structure TableRow where
  opcode : Opcode
  mask : BitVec 32
  pattern : BitVec 32
  argMin : Nat
  argMax : Nat
deriving DecidableEq, Repr

/-- The rows of spec/opcode_table.json: `mask`, `match`, and the `ARG` range of R74. -/
def tableRows : List TableRow :=
  [⟨.pkcs7Pad, 0xFFFFE0FF, 0x10, 8, 16⟩, ⟨.pkcs7Strip, 0xFFFFE0FF, 0x11, 8, 16⟩,
   ⟨.pkcs7TryStrip, 0xFFFFE0FF, 0x12, 8, 16⟩,
   ⟨.ecbEnc, 0xFFFFFFFF, 0x20, 0, 0⟩, ⟨.ecbDec, 0xFFFFFFFF, 0x21, 0, 0⟩, ⟨.cbcEnc, 0xFFFFFFFF, 0x22, 0, 0⟩,
   ⟨.cbcDec, 0xFFFFFFFF, 0x23, 0, 0⟩, ⟨.ctrXform, 0xFFFFFFFF, 0x24, 0, 0⟩] ++
  [⟨.sha1Init, 0xFFFFFFFF, 0x30, 0, 0⟩, ⟨.sha1InitState, 0xFFFFFFFF, 0x31, 0, 0⟩,
   ⟨.sha1Update, 0xFFFFFFFF, 0x32, 0, 0⟩, ⟨.sha1Finish, 0xFFFFFFFF, 0x33, 0, 0⟩,
   ⟨.sha1Padding, 0xFFFFFFFF, 0x34, 0, 0⟩,
   ⟨.md4Init, 0xFFFFFFFF, 0x40, 0, 0⟩, ⟨.md4InitState, 0xFFFFFFFF, 0x41, 0, 0⟩,
   ⟨.md4Update, 0xFFFFFFFF, 0x42, 0, 0⟩, ⟨.md4Finish, 0xFFFFFFFF, 0x43, 0, 0⟩,
   ⟨.md4Padding, 0xFFFFFFFF, 0x44, 0, 0⟩] ++
  [⟨.mtNew, 0xFFFFFFFF, 0x50, 0, 0⟩, ⟨.mtFrom, 0xFFFFFFFF, 0x51, 0, 0⟩, ⟨.mtNext, 0xFFFFFFFF, 0x52, 0, 0⟩,
   ⟨.mtInvRshift, 0xFFFFE0FF, 0x53, 1, 31⟩, ⟨.mtInvLshift, 0xFFFFE0FF, 0x54, 1, 31⟩]

/-- A row selects a word: `c & mask = match`, and `ARG` is in the row's range (30_encoding.md R76). -/
abbrev TableRow.selects (row : TableRow) (c : BitVec 32) : Prop :=
  c &&& row.mask = row.pattern ∧ row.argMin ≤ (argField c).toNat ∧ (argField c).toNat ≤ row.argMax

/-- The host presents, with each legal command word, operands of its row's types (30_encoding.md R72, R73). Operands of
an illegal word are not looked at (R75). -/
def Presentable : HostEvent → Prop
  | .reset => True
  | .command word operands => ∀ o, selectRow word = some o → operands.map Operand.type = o.signature

end Sys2Proof.Safety
end

