-- ==== Sys2Proof/Certificates/Slice0/Obligations.lean ====
section
/-! DEFINITION. The statements put to the provers. Each docstring names the rule of spec/ it formalises. `s.pending` and
`s.responses` are the model's own record of the host interface (assumption logs 1 and 7). -/

open Sys2Proof Sys2Proof.Machine Sys2Proof.Safety

/-! ### Encoding and issue -/

/-- R81: the decode procedure. The command at the head of the queue is answered `Faulted` while the latch is set;
with the latch clear an illegal word ends with `IllegalCommand`, and what a legal word and its operands decode to is
a command of the word's row, whose own rule is run. -/
def Obligations.StepRunsTheDecodedCommand : Prop :=
  ∀ (s : State) (w : BitVec 32) (ops : List Operand) (rest : List HostEvent), s.pending = .command w ops :: rest →
    (s.fault = true → step s = .next { s with pending := rest, responses := s.responses ++ [⟨.faulted, .none⟩] }) ∧
    (s.fault = false → selectRow w = none → step s = .next (traps s .illegalCommand 5)) ∧
    (s.fault = false → ∀ i, decode w ops = .ok i → selectRow w = some i.opcode ∧ i.operands = ops ∧ step s = exec i s)

/-- R237: while the latch is set every command, whatever its word and operands, is answered `Faulted` with no data,
and no state changes. -/
def Obligations.LatchedCommandAnswersFaulted : Prop :=
  ∀ (s : State) (w : BitVec 32) (ops : List Operand) (rest : List HostEvent),
    s.fault = true → s.pending = .command w ops :: rest →
    step s = .next { s with pending := rest, responses := s.responses ++ [⟨.faulted, .none⟩] }

/-- R75: the legal words are those of the table's rows with `ARG` in range, as numbers `OPC + 256 * ARG` (R71);
every other word is answered `IllegalCommand`, fatal, whatever operands stand beside it. -/
def Obligations.IllegalWordsTrap : Prop :=
  ∀ w : BitVec 32,
    ((∃ row ∈ tableRows, ∃ arg, row.argMin ≤ arg ∧ arg ≤ row.argMax ∧ w.toNat = row.pattern.toNat + 256 * arg) →
      ∀ ops, decode w ops ≠ .error .illegal) ∧
    ((¬ ∃ row ∈ tableRows, ∃ arg, row.argMin ≤ arg ∧ arg ≤ row.argMax ∧ w.toNat = row.pattern.toNat + 256 * arg) →
      ∀ (s : State) (ops : List Operand) (rest : List HostEvent), s.fault = false → s.pending = .command w ops :: rest →
        step s = .next (traps s .illegalCommand 5))

/-- R76: the decoder selects a row exactly when the word matches its mask and its `ARG` is in range, and no word
matches two rows. -/
def Obligations.RowsSelectByMaskAndMatch : Prop :=
  (∀ (w : BitVec 32) (o : Opcode), selectRow w = some o ↔ ∃ row ∈ tableRows, row.opcode = o ∧ row.selects w) ∧
  ∀ (w : BitVec 32), ∀ r1 ∈ tableRows, ∀ r2 ∈ tableRows,
    w &&& r1.mask = r1.pattern → w &&& r2.mask = r2.pattern → r1 = r2

/-- Every well-formed command, with every operand, is what its own encoding decodes to. -/
def Obligations.DecodeOfEncode : Prop :=
  ∀ i : Instr, WellFormed i → decode (encode i).1 (encode i).2 = .ok i

/-- A word with operands has one meaning: what the decoder reads is well formed and encodes back to the same word
and operands, so that no bit and no operand is dropped. -/
def Obligations.EncodeOfDecode : Prop :=
  ∀ (w : BitVec 32) (ops : List Operand) (i : Instr), decode w ops = .ok i → WellFormed i ∧ encode i = (w, ops)

/-- R72, R73: a legal word decodes, to its row, with operands of its row's types in its row's order. That it decodes
with no other operands is the model's own reading (DEDUCED, assumption log 8): R73 says only that operands of other
types cannot be presented, and the model refuses them. -/
def Obligations.LegalWordDecodesWithItsOperandTypes : Prop :=
  ∀ (w : BitVec 32) (o : Opcode), selectRow w = some o → ∀ ops : List Operand,
    (ops.map Operand.type = o.signature ↔ ∃ i, decode w ops = .ok i ∧ i.opcode = o)

/-- A few words written out from the encoding of R71 and R72, with what they decode to. -/
def Obligations.SampleWordsDecode : Prop :=
  decode 0x00001010 [.bytes [0x41]] = .ok (.pkcs7Pad 16 [0x41]) ∧
  decode 0x00000c12 [.bytes []] = .ok (.pkcs7TryStrip 12 []) ∧
  decode 0x00000021 [.bytes [1], .bytes [2]] = .ok (.ecbDec [1] [2]) ∧
  decode 0x00000033 [] = .ok .sha1Finish ∧
  decode 0x00000044 [.u64 3] = .ok (.md4Padding 3) ∧
  decode 0x00000754 [.u32 1, .u32 2] = .ok (.mtInvLshift 7 1 2) ∧
  decode 0x00002010 [.bytes []] = .error .illegal

/-! ### PKCS7 -/

/-- R91, R92: `PadLen(N, B) = some(v)` exactly when `1 <= v <= N` and the last `v` bytes of `B` all equal `v`,
whatever stands before them. -/
def Obligations.PadLenAcceptsExactlyValidPadding : Prop :=
  ∀ (n : Nat) (b : Bytes) (v : Nat), BlockSizeOk n → (padLen n b = some v ↔ ∃ a, PaddedWith n b a v)

/-- R94: `PKCS7_PAD<N>`: the data followed by `p = N - len(data)` bytes `p`, of length exactly `N`; `OversizedBlock`
when the data is longer than `N`. -/
def Obligations.PadResult : Prop :=
  ∀ (n : Nat) (data : Bytes) (s : State), BlockSizeOk n →
    (data.length ≤ n → ∃ out : Bytes, exec (.pkcs7Pad n data) s = .next (answers s (.bytes out)) ∧ out.length = n ∧
      out = data ++ List.replicate (n - data.length) (BitVec.ofNat 8 (n - data.length))) ∧
    (n < data.length → exec (.pkcs7Pad n data) s = .next (traps s .oversizedBlock 2))

/-- R95: `PKCS7_STRIP<N>` always answers `OK`: the data before valid padding, else the data unchanged. -/
def Obligations.StripResult : Prop :=
  ∀ (n : Nat) (data : Bytes) (s : State), BlockSizeOk n →
    ∃ out : Bytes, exec (.pkcs7Strip n data) s = .next (answers s (.bytes out)) ∧ Stripped n data out

/-- R96: `PKCS7_TRY_STRIP<N>`: the data before valid padding; without valid padding `InvalidPadding`, with no data,
and neither the latch nor any other state changes (R241). -/
def Obligations.TryStripResult : Prop :=
  ∀ (n : Nat) (data : Bytes) (s : State), BlockSizeOk n →
    (∀ a v, PaddedWith n data a v → exec (.pkcs7TryStrip n data) s = .next (answers s (.bytes a))) ∧
    ((∀ a v, ¬ PaddedWith n data a v) → exec (.pkcs7TryStrip n data) s =
      .next { s with pending := s.pending.tail, responses := s.responses ++ [⟨.invalidPadding, .none⟩] })

/-- R98: for `len(b) < N` both strips give back what the pad was given. -/
def Obligations.PadThenStrip : Prop :=
  ∀ (n : Nat) (b : Bytes) (s s' : State), BlockSizeOk n → b.length < n →
    ∃ out : Bytes, exec (.pkcs7Pad n b) s = .next (answers s (.bytes out)) ∧
      exec (.pkcs7TryStrip n out) s' = .next (answers s' (.bytes b)) ∧
      exec (.pkcs7Strip n out) s' = .next (answers s' (.bytes b))

/-! ### MODES -/

/-- R112, R114: `ECB_ENC`: `InvalidKeyLength` on a key of another length than 16; with a 16-byte key `floor(L/16) +
1` blocks, block `i` the `CIPH_ENC` of block `i` of the padded data, and no register changes. -/
def Obligations.EcbEncResult : Prop :=
  ∀ (key data : Bytes) (s : State),
    (key.length ≠ 16 → exec (.ecbEnc key data) s = .next (traps s .invalidKeyLength 4)) ∧
    ∀ k : Key, k.toList = key →
      ∃ out : Bytes, exec (.ecbEnc key data) s = .next (answers s (.bytes out)) ∧
        out.length = 16 * (data.length / 16 + 1) ∧
        ∀ i ≤ data.length / 16, ∃ p : Block, BlockAt (paddedData data) i p ∧ BlockAt out i (Config.ciphEnc k p)

/-- R115: `ECB_DEC`: `InvalidKeyLength` on a key of another length than 16; with a 16-byte key
`MisalignedCiphertext` on a ciphertext that is no multiple of 16 long, and on an aligned one the lenient strip of
the `CIPH_DEC` of each block, with no register changed. -/
def Obligations.EcbDecResult : Prop :=
  ∀ (key data : Bytes) (s : State),
    (key.length ≠ 16 → exec (.ecbDec key data) s = .next (traps s .invalidKeyLength 4)) ∧
    ∀ k : Key, k.toList = key →
      (data.length % 16 ≠ 0 → exec (.ecbDec key data) s = .next (traps s .misalignedCiphertext 3)) ∧
      (data.length % 16 = 0 →
        ∃ plain out : Bytes, exec (.ecbDec key data) s = .next (answers s (.bytes out)) ∧
          plain.length = data.length ∧
          (∀ i < data.length / 16, ∃ c : Block, BlockAt data i c ∧ BlockAt plain i (Config.ciphDec k c)) ∧
          Stripped 16 plain out)

/-- R116, R117: `CBC_ENC`: `InvalidKeyLength` on a key of another length than 16; with a 16-byte key block `i` is
the `CIPH_ENC` of block `i` of the padded data XORed with the previous ciphertext block, or with the IV for block 0,
and no register changes. -/
def Obligations.CbcEncResult : Prop :=
  ∀ (key : Bytes) (iv : Block) (data : Bytes) (s : State),
    (key.length ≠ 16 → exec (.cbcEnc key iv data) s = .next (traps s .invalidKeyLength 4)) ∧
    ∀ k : Key, k.toList = key →
      ∃ out : Bytes, exec (.cbcEnc key iv data) s = .next (answers s (.bytes out)) ∧
        out.length = 16 * (data.length / 16 + 1) ∧
        ∀ i ≤ data.length / 16, ∃ p chain x : Block, BlockAt (paddedData data) i p ∧
          (i = 0 → chain = iv) ∧ (∀ h, i = h + 1 → BlockAt out h chain) ∧
          (∀ j : Fin 16, x[j] = p[j] ^^^ chain[j]) ∧ BlockAt out i (Config.ciphEnc k x)

/-- R116, R118: `CBC_DEC`: `InvalidKeyLength` on a key of another length than 16; with a 16-byte key
`MisalignedCiphertext` on a ciphertext that is no multiple of 16 long, and on an aligned one the `CIPH_DEC` of block
`i` XORed with the preceding ciphertext block, or with the IV for block 0, then one lenient strip, with no register
changed. -/
def Obligations.CbcDecResult : Prop :=
  ∀ (key : Bytes) (iv : Block) (data : Bytes) (s : State),
    (key.length ≠ 16 → exec (.cbcDec key iv data) s = .next (traps s .invalidKeyLength 4)) ∧
    ∀ k : Key, k.toList = key →
      (data.length % 16 ≠ 0 → exec (.cbcDec key iv data) s = .next (traps s .misalignedCiphertext 3)) ∧
      (data.length % 16 = 0 →
        ∃ plain out : Bytes, exec (.cbcDec key iv data) s = .next (answers s (.bytes out)) ∧
          plain.length = data.length ∧
          (∀ i < data.length / 16, ∃ c chain p : Block, BlockAt data i c ∧
            (i = 0 → chain = iv) ∧ (∀ h, i = h + 1 → BlockAt data h chain) ∧
            (∀ j : Fin 16, p[j] = (Config.ciphDec k c)[j] ^^^ chain[j]) ∧ BlockAt plain i p) ∧
          Stripped 16 plain out)

/-- R120, R9: decryption gives back what encryption was given, for every message and every IV, in ECB and in CBC,
exactly where decryption of a block undoes its encryption. The four commands run on, and detect nothing, with every
16-byte key and every cipher (R247, 93_implementation_defined.md U6); where the key's cipher keeps R9's law their round
trips are exact. -/
def Obligations.EcbAndCbcRoundTrip : Prop :=
  (∀ (enc dec : Block → Block) (iv : Block),
    (CiphLaw enc dec ↔ ∀ m, ecbDecrypt dec (ecbEncrypt enc m) = m) ∧
    (CiphLaw enc dec ↔ ∀ m, cbcDecrypt dec iv (cbcEncrypt enc iv m) = m)) ∧
  ∀ (k : Key) (iv : Block) (m : Bytes) (s s' : State), ∃ c p c' p' : Bytes,
    (exec (.ecbEnc k.toList m) s = .next (answers s (.bytes c)) ∧ c = ecbEncrypt (Config.ciphEnc k) m) ∧
    (exec (.ecbDec k.toList c) s' = .next (answers s' (.bytes p)) ∧ p = ecbDecrypt (Config.ciphDec k) c) ∧
    (exec (.cbcEnc k.toList iv m) s = .next (answers s (.bytes c')) ∧ c' = cbcEncrypt (Config.ciphEnc k) iv m) ∧
    (exec (.cbcDec k.toList iv c') s' = .next (answers s' (.bytes p')) ∧ p' = cbcDecrypt (Config.ciphDec k) iv c') ∧
    (CiphLaw (Config.ciphEnc k) (Config.ciphDec k) → p = m ∧ p' = m)

/-- R122 to R125, R56: `CTR_XFORM`: `InvalidKeyLength` on a key of another length than 16; with a 16-byte key as
many bytes as the data, byte `j` XORed with byte `j mod 16` of the `CIPH_ENC` of the nonce followed by the counter
`floor(j/16)`, least significant byte first, and no register changes. -/
def Obligations.CtrResult : Prop :=
  ∀ (key : Bytes) (nonce : BytesN 8) (data : Bytes) (s : State),
    (key.length ≠ 16 → exec (.ctrXform key nonce data) s = .next (traps s .invalidKeyLength 4)) ∧
    ∀ k : Key, k.toList = key →
      ∃ out : Bytes, exec (.ctrXform key nonce data) s = .next (answers s (.bytes out)) ∧
        out.length = data.length ∧
        ∀ (j : Nat) (block : Block), j < data.length →
          (∀ t : Fin 8, block[t.val] = nonce[t] ∧ block[8 + t.val] = BitVec.ofNat 8 (j / 16 / 256 ^ t.val)) →
          out[j]? = some (data.getD j 0 ^^^ (Config.ciphEnc k block)[j % 16]'(Nat.mod_lt _ (by decide)))

/-- R126: the same command is both encryption and decryption. -/
def Obligations.CtrSelfInverse : Prop :=
  ∀ (k : Key) (nonce : BytesN 8) (m : Bytes) (s s' : State),
    ∃ c : Bytes, exec (.ctrXform k.toList nonce m) s = .next (answers s (.bytes c)) ∧
      exec (.ctrXform k.toList nonce c) s' = .next (answers s' (.bytes m))

/-- R111, R238: a key of another length than 16 ends all five commands with `InvalidKeyLength`, whatever the data. -/
def Obligations.WrongKeyLengthTraps : Prop :=
  ∀ (key data : Bytes) (iv : Block) (nonce : BytesN 8) (s : State), key.length ≠ 16 →
    exec (.ecbEnc key data) s = .next (traps s .invalidKeyLength 4) ∧
    exec (.ecbDec key data) s = .next (traps s .invalidKeyLength 4) ∧
    exec (.cbcEnc key iv data) s = .next (traps s .invalidKeyLength 4) ∧
    exec (.cbcDec key iv data) s = .next (traps s .invalidKeyLength 4) ∧
    exec (.ctrXform key nonce data) s = .next (traps s .invalidKeyLength 4)

/-- R58, R115, R118: with a 16-byte key, a ciphertext whose length is no multiple of 16 ends both decrypt commands
with `MisalignedCiphertext`. -/
def Obligations.MisalignedCiphertextTraps : Prop :=
  ∀ (k : Key) (iv : Block) (data : Bytes) (s : State), data.length % 16 ≠ 0 →
    exec (.ecbDec k.toList data) s = .next (traps s .misalignedCiphertext 3) ∧
    exec (.cbcDec k.toList iv data) s = .next (traps s .misalignedCiphertext 3)

/-! ### Hash units -/

/-- R150, R171: `SHA1_INIT` in every state: the initial constants, `FILL = 0`, `TOTAL = 0`, `PHASE = INIT`; `BUF`
and everything else unchanged. -/
def Obligations.Sha1InitResult : Prop :=
  ∀ s : State, exec .sha1Init s = .next { answers s .none with
    sha1 := { h := #v[0x67452301, 0xEFCDAB89, 0x98BADCFE, 0x10325476, 0xC3D2E1F0], buf := s.sha1.buf, fill := 0,
              total := 0, phase := .init } }

/-- R155, R186: `MD4_INIT` in every state. -/
def Obligations.Md4InitResult : Prop :=
  ∀ s : State, exec .md4Init s = .next { answers s .none with
    md4 := { h := #v[0x67452301, 0xEFCDAB89, 0x98BADCFE, 0x10325476], buf := s.md4.buf, fill := 0,
             total := 0, phase := .init } }

/-- R151, R144: `SHA1_INIT_STATE` in every state: `H[i]` is the big-endian reading of `digest[4i .. 4i+4)`, `FILL =
0`, `TOTAL = consumed`, `PHASE = INIT`; everything else unchanged. -/
def Obligations.Sha1InitStateResult : Prop :=
  ∀ (digest : BytesN 20) (consumed : DWord) (s : State), ∃ h : Vector Word 5,
    (∀ i : Fin 5, h[i].toNat = digest[4 * i.val].toNat * 2 ^ 24 + digest[4 * i.val + 1].toNat * 2 ^ 16 +
      digest[4 * i.val + 2].toNat * 2 ^ 8 + digest[4 * i.val + 3].toNat) ∧
    exec (.sha1InitState digest consumed) s = .next { answers s .none with
      sha1 := { h := h, buf := s.sha1.buf, fill := 0, total := consumed, phase := .init } }

/-- R156, R144: `MD4_INIT_STATE` in every state: `H[i]` is the little-endian reading of `digest[4i .. 4i+4)`. -/
def Obligations.Md4InitStateResult : Prop :=
  ∀ (digest : BytesN 16) (consumed : DWord) (s : State), ∃ h : Vector Word 4,
    (∀ i : Fin 4, h[i].toNat = digest[4 * i.val].toNat + digest[4 * i.val + 1].toNat * 2 ^ 8 +
      digest[4 * i.val + 2].toNat * 2 ^ 16 + digest[4 * i.val + 3].toNat * 2 ^ 24) ∧
    exec (.md4InitState digest consumed) s = .next { answers s .none with
      md4 := { h := h, buf := s.md4.buf, fill := 0, total := consumed, phase := .init } }

/-- R152, R145, R143: `SHA1_UPDATE`: `BadPhase` where there is no live context; on a live one it completes and
absorbs the data block by block, and only the SHA1 unit changes. -/
def Obligations.Sha1UpdateAbsorbsData : Prop :=
  ∀ (data : Bytes) (s : State),
    (s.sha1.phase = .idle ∨ s.sha1.phase = .finalized → exec (.sha1Update data) s = .next (traps s .badPhase 6)) ∧
    (HashOk s.sha1 → s.sha1.phase = .init ∨ s.sha1.phase = .updating →
      ∃ u : HashUnit 5, exec (.sha1Update data) s = .next { answers s .none with sha1 := u } ∧
        Absorbs sha1Alg s.sha1 u data)

/-- R157, R145, R143: `MD4_UPDATE`: `BadPhase` where there is no live context; on a live one it completes and
absorbs the data block by block, and only the MD4 unit changes. -/
def Obligations.Md4UpdateAbsorbsData : Prop :=
  ∀ (data : Bytes) (s : State),
    (s.md4.phase = .idle ∨ s.md4.phase = .finalized → exec (.md4Update data) s = .next (traps s .badPhase 6)) ∧
    (HashOk s.md4 → s.md4.phase = .init ∨ s.md4.phase = .updating →
      ∃ u : HashUnit 4, exec (.md4Update data) s = .next { answers s .none with md4 := u } ∧
        Absorbs md4Alg s.md4 u data)

/-- R153, R147: `SHA1_FINISH`: `BadPhase` where there is no live context; on a live one it completes with the digest
of the padded message and `PHASE = FINALIZED`; nothing is said of the unit's other registers, which the spec leaves
unspecified, nor of the model's own count of free values; everything else is unchanged. -/
def Obligations.Sha1FinishGivesTheDigest : Prop :=
  ∀ s : State,
    (s.sha1.phase = .idle ∨ s.sha1.phase = .finalized → exec .sha1Finish s = .next (traps s .badPhase 6)) ∧
    (HashOk s.sha1 → s.sha1.phase = .init ∨ s.sha1.phase = .updating →
      ∃ (digest : Bytes) (u : HashUnit 5) (n : Nat),
        exec .sha1Finish s = .next { answers s (.bytes digest) with sha1 := u, freeCount := n } ∧
        u.phase = .finalized ∧ digest.length = 20 ∧ Digests sha1Alg s.sha1 digest)

/-- R158, R147: `MD4_FINISH`: `BadPhase` where there is no live context; on a live one it completes with the digest
of the padded message, as `SHA1_FINISH` does. -/
def Obligations.Md4FinishGivesTheDigest : Prop :=
  ∀ s : State,
    (s.md4.phase = .idle ∨ s.md4.phase = .finalized → exec .md4Finish s = .next (traps s .badPhase 6)) ∧
    (HashOk s.md4 → s.md4.phase = .init ∨ s.md4.phase = .updating →
      ∃ (digest : Bytes) (u : HashUnit 4) (n : Nat),
        exec .md4Finish s = .next { answers s (.bytes digest) with md4 := u, freeCount := n } ∧
        u.phase = .finalized ∧ digest.length = 16 ∧ Digests md4Alg s.md4 digest)

/-- R154, R159, R148: the padding commands, in every state: `0x80`, then zero bytes up to 8 short of a block
boundary, then the bit length modulo 2^64, big-endian for SHA-1 and little-endian for MD4; 9 to 72 bytes that
complete the last block; no register changes. -/
def Obligations.PaddingCompletesTheBlock : Prop :=
  ∀ (length : DWord) (s : State), ∃ (z : Nat) (big little : BytesN 8),
    z < 64 ∧ (length.toNat + 9 + z) % 64 = 0 ∧
    (∀ i : Fin 8, big[i].toNat = length.toNat * 8 % 2 ^ 64 / 256 ^ (7 - i.val) % 256 ∧
      little[i].toNat = length.toNat * 8 % 2 ^ 64 / 256 ^ i.val % 256) ∧
    exec (.sha1Padding length) s = .next (answers s (.bytes ([0x80] ++ List.replicate z 0 ++ big.toList))) ∧
    exec (.md4Padding length) s = .next (answers s (.bytes ([0x80] ++ List.replicate z 0 ++ little.toList)))

/-- R149: on a live context with `FILL = TOTAL mod 64`, the finish gives the digest of the chaining words that an
update by the padding bytes for `TOTAL` leaves. -/
def Obligations.FinishAgreesWithPadding : Prop :=
  ∀ s : State,
    (HashOk s.sha1 → s.sha1.phase.live = true → s.sha1.fill = s.sha1.total.toNat % 64 →
      ∃ (pad digest : Bytes) (u u' : HashUnit 5) (n : Nat),
        exec (.sha1Padding s.sha1.total) s = .next (answers s (.bytes pad)) ∧
        exec (.sha1Update pad) s = .next { answers s .none with sha1 := u } ∧
        exec .sha1Finish s = .next { answers s (.bytes digest) with sha1 := u', freeCount := n } ∧
        digest = joined (u.h.toList.map be32bytes)) ∧
    (HashOk s.md4 → s.md4.phase.live = true → s.md4.fill = s.md4.total.toNat % 64 →
      ∃ (pad digest : Bytes) (u u' : HashUnit 4) (n : Nat),
        exec (.md4Padding s.md4.total) s = .next (answers s (.bytes pad)) ∧
        exec (.md4Update pad) s = .next { answers s .none with md4 := u } ∧
        exec .md4Finish s = .next { answers s (.bytes digest) with md4 := u', freeCount := n } ∧
        digest = joined (u.h.toList.map le32bytes))

/-- R160: length extension, from any states: the digest of `p` (secret and message) and its length are enough to
continue it, and the continued digest is that of `p ‖ padding(len p) ‖ x`. -/
def Obligations.LengthExtension : Prop :=
  ∀ (p x : Bytes) (s s' : State),
    (∃ (d : BytesN 20) (pad e : Bytes) (t t1 t2 : State),
      execAll [.sha1Init, .sha1Update p, .sha1Finish] s = .next t ∧
      t.responses = s.responses ++ [⟨.ok, .none⟩, ⟨.ok, .none⟩, ⟨.ok, .bytes d.toList⟩] ∧
      exec (.sha1Padding (BitVec.ofNat 64 p.length)) s' = .next (answers s' (.bytes pad)) ∧
      execAll [.sha1InitState d (BitVec.ofNat 64 (p.length + pad.length)), .sha1Update x, .sha1Finish] s' = .next t1 ∧
      t1.responses = s'.responses ++ [⟨.ok, .none⟩, ⟨.ok, .none⟩, ⟨.ok, .bytes e⟩] ∧
      execAll [.sha1Init, .sha1Update (p ++ pad ++ x), .sha1Finish] s = .next t2 ∧
      t2.responses = s.responses ++ [⟨.ok, .none⟩, ⟨.ok, .none⟩, ⟨.ok, .bytes e⟩]) ∧
    (∃ (d : BytesN 16) (pad e : Bytes) (t t1 t2 : State),
      execAll [.md4Init, .md4Update p, .md4Finish] s = .next t ∧
      t.responses = s.responses ++ [⟨.ok, .none⟩, ⟨.ok, .none⟩, ⟨.ok, .bytes d.toList⟩] ∧
      exec (.md4Padding (BitVec.ofNat 64 p.length)) s' = .next (answers s' (.bytes pad)) ∧
      execAll [.md4InitState d (BitVec.ofNat 64 (p.length + pad.length)), .md4Update x, .md4Finish] s' = .next t1 ∧
      t1.responses = s'.responses ++ [⟨.ok, .none⟩, ⟨.ok, .none⟩, ⟨.ok, .bytes e⟩] ∧
      execAll [.md4Init, .md4Update (p ++ pad ++ x), .md4Finish] s = .next t2 ∧
      t2.responses = s.responses ++ [⟨.ok, .none⟩, ⟨.ok, .none⟩, ⟨.ok, .bytes e⟩])

/-- R161: two updates leave the same unit as one update by the joined data. -/
def Obligations.UpdateSplitInvariance : Prop :=
  ∀ (a b : Bytes) (s : State),
    (HashOk s.sha1 → s.sha1.phase.live = true → ∃ t1 t2 : State,
      execAll [.sha1Update a, .sha1Update b] s = .next t1 ∧ exec (.sha1Update (a ++ b)) s = .next t2 ∧
      t1.sha1 = t2.sha1) ∧
    (HashOk s.md4 → s.md4.phase.live = true → ∃ t1 t2 : State,
      execAll [.md4Update a, .md4Update b] s = .next t1 ∧ exec (.md4Update (a ++ b)) s = .next t2 ∧
      t1.md4 = t2.md4)

/-- R233: the five commands that need a live context end with `BadPhase` where there is none, and change nothing but
the latch. -/
def Obligations.BadPhaseTraps : Prop :=
  ∀ (data : Bytes) (s : State),
    (s.sha1.phase = .idle ∨ s.sha1.phase = .finalized →
      exec (.sha1Update data) s = .next (traps s .badPhase 6) ∧ exec .sha1Finish s = .next (traps s .badPhase 6)) ∧
    (s.md4.phase = .idle ∨ s.md4.phase = .finalized →
      exec (.md4Update data) s = .next (traps s .badPhase 6) ∧ exec .md4Finish s = .next (traps s .badPhase 6)) ∧
    (s.prng.phase = .idle → exec .mtNext s = .next (traps s .badPhase 6))

/-- R141: the transition table of both hash units' `PHASE`, over every command that answers; no other command moves
either phase. -/
def Obligations.PhaseTransitionTable : Prop :=
  ∀ (i : Instr) (s t : State), exec i s = .next t →
    t.sha1.phase = (match i.opcode with
      | .sha1Init | .sha1InitState => .init
      | .sha1Update => if s.sha1.phase = .init ∨ s.sha1.phase = .updating then .updating else s.sha1.phase
      | .sha1Finish => if s.sha1.phase = .init ∨ s.sha1.phase = .updating then .finalized else s.sha1.phase
      | _ => s.sha1.phase) ∧
    t.md4.phase = (match i.opcode with
      | .md4Init | .md4InitState => .init
      | .md4Update => if s.md4.phase = .init ∨ s.md4.phase = .updating then .updating else s.md4.phase
      | .md4Finish => if s.md4.phase = .init ∨ s.md4.phase = .updating then .finalized else s.md4.phase
      | _ => s.md4.phase)

/-- R172 to R176: the SHA-1 compression written out: the schedule, 16 big-endian words of the block and then the
recurrence with its rotation by 1; the 80 steps in order, from the chaining words, each a simultaneous update of `a` to
`e` with the round's function and constant; and the final addition to the chaining words. -/
def Obligations.Sha1CompressionSteps : Prop :=
  ∀ (h : Vector Word 5) (block : BytesN 64),
    (∀ j : Fin 16, ((sha1Schedule block)[j.val]).toNat = block[4 * j.val].toNat * 2 ^ 24 +
      block[4 * j.val + 1].toNat * 2 ^ 16 + block[4 * j.val + 2].toNat * 2 ^ 8 + block[4 * j.val + 3].toNat) ∧
    (∀ j : Fin 64, (sha1Schedule block)[j.val + 16] =
      ((sha1Schedule block)[j.val + 13] ^^^ (sha1Schedule block)[j.val + 8] ^^^ (sha1Schedule block)[j.val + 2] ^^^
        (sha1Schedule block)[j.val]).rotateLeft 1) ∧
    ∃ v : Nat → Vector Word 5, v 0 = h ∧
      (∀ i : Fin 80, ∃ a b c d e f k : Word, v i.val = #v[a, b, c, d, e] ∧
        f = (if i.val < 20 then (b &&& c) ||| (~~~b &&& d) else if i.val < 40 then b ^^^ c ^^^ d
          else if i.val < 60 then (b &&& c) ||| (b &&& d) ||| (c &&& d) else b ^^^ c ^^^ d) ∧
        k = (if i.val < 20 then 0x5A827999 else if i.val < 40 then 0x6ED9EBA1
          else if i.val < 60 then 0x8F1BBCDC else 0xCA62C1D6) ∧
        v (i.val + 1) =
          #v[a.rotateLeft 5 + f + e + k + (sha1Schedule block)[i.val], a, b.rotateLeft 30, c, d]) ∧
      ∀ j : Fin 5, (sha1Compress h block)[j] = h[j] + (v 80)[j]

/-- R191: the closed form of the MD4 step table: rotations by round and `s mod 4`, schedule indices in natural,
column-major and bit-reversed order. -/
def Obligations.Md4TableClosedForm : Prop :=
  md4Table.length = 48 ∧ ∀ j < 16,
    md4Table[j]? = some ⟨Fin.ofNat 16 j, [3, 7, 11, 19].getD (j % 4) 0, .f⟩ ∧
    md4Table[16 + j]? = some ⟨Fin.ofNat 16 (4 * (j % 4) + j / 4), [3, 5, 9, 13].getD (j % 4) 0, .g⟩ ∧
    md4Table[32 + j]? = some ⟨Fin.ofNat 16 (8 * (j % 2) + 4 * (j / 2 % 2) + 2 * (j / 4 % 2) + j / 8),
      [3, 9, 11, 15].getD (j % 4) 0, .h⟩

/-- R187 to R189, R191, R192: the MD4 compression written out: the 16 little-endian words of the block; the three round
functions and additive constants; the step for its four positions, the targets cycling `a, d, c, b` and the other
three words staying; the 48 steps in order, from the chaining words, with the schedule index and rotation of their
place in the round; and the final addition to the chaining words. -/
def Obligations.Md4CompressionSteps : Prop :=
  (∀ (block : BytesN 64) (j : Fin 16), ((md4Load block)[j]).toNat = block[4 * j.val].toNat +
    block[4 * j.val + 1].toNat * 2 ^ 8 + block[4 * j.val + 2].toNat * 2 ^ 16 + block[4 * j.val + 3].toNat * 2 ^ 24) ∧
  (∀ x y z : Word,
    Md4Fn.f.apply x y z = (x &&& y) ||| (~~~x &&& z) ∧ Md4Fn.f.constant = 0x00000000 ∧
    Md4Fn.g.apply x y z = (x &&& y) ||| (x &&& z) ||| (y &&& z) ∧ Md4Fn.g.constant = 0x5A827999 ∧
    Md4Fn.h.apply x y z = x ^^^ y ^^^ z ∧ Md4Fn.h.constant = 0x6ED9EBA1) ∧
  (∀ (x : Vector Word 16) (a b c d : Word) (n : Nat) (row : Md4Row),
    md4Step x #v[a, b, c, d] (4 * n) row =
      #v[(a + row.fn.apply b c d + x[row.k] + row.fn.constant).rotateLeft row.r, b, c, d] ∧
    md4Step x #v[a, b, c, d] (4 * n + 1) row =
      #v[a, b, c, (d + row.fn.apply a b c + x[row.k] + row.fn.constant).rotateLeft row.r] ∧
    md4Step x #v[a, b, c, d] (4 * n + 2) row =
      #v[a, b, (c + row.fn.apply d a b + x[row.k] + row.fn.constant).rotateLeft row.r, d] ∧
    md4Step x #v[a, b, c, d] (4 * n + 3) row =
      #v[a, (b + row.fn.apply c d a + x[row.k] + row.fn.constant).rotateLeft row.r, c, d]) ∧
  ∀ (h : Vector Word 4) (block : BytesN 64), ∃ v : Nat → Vector Word 4, v 0 = h ∧
    (∀ j < 16,
      v (j + 1) = md4Step (md4Load block) (v j) j ⟨Fin.ofNat 16 j, [3, 7, 11, 19].getD (j % 4) 0, .f⟩ ∧
      v (j + 17) = md4Step (md4Load block) (v (j + 16)) (j + 16)
        ⟨Fin.ofNat 16 (4 * (j % 4) + j / 4), [3, 5, 9, 13].getD (j % 4) 0, .g⟩ ∧
      v (j + 33) = md4Step (md4Load block) (v (j + 32)) (j + 32)
        ⟨Fin.ofNat 16 (8 * (j % 2) + 4 * (j / 2 % 2) + 2 * (j / 4 % 2) + j / 8), [3, 9, 11, 15].getD (j % 4) 0, .h⟩) ∧
    ∀ i : Fin 4, (md4Compress h block)[i] = h[i] + (v 48)[i]

/-- R14: the byte-word conversions: the two readings of four bytes, their inverses, and the bytes of a `u64`. -/
def Obligations.ByteWordConversions : Prop :=
  (∀ b : BytesN 4,
    (be32 b).toNat = b[0].toNat * 2 ^ 24 + b[1].toNat * 2 ^ 16 + b[2].toNat * 2 ^ 8 + b[3].toNat ∧
    (le32 b).toNat = b[0].toNat + b[1].toNat * 2 ^ 8 + b[2].toNat * 2 ^ 16 + b[3].toNat * 2 ^ 24 ∧
    be32bytes (be32 b) = b ∧ le32bytes (le32 b) = b) ∧
  (∀ w : Word, be32 (be32bytes w) = w ∧ le32 (le32bytes w) = w) ∧
  ∀ (v : DWord) (i : Fin 8),
    (be64bytes v)[i].toNat = v.toNat / 2 ^ (56 - 8 * i.val) % 256 ∧
    (le64bytes v)[i].toNat = v.toNat / 2 ^ (8 * i.val) % 256

/-- R52: `MemWrite` inside the buffer succeeds, `MemRead` then gives the bytes written, and every other offset reads
as before. That an access past offset 63 reads and writes nothing and gives the error `bufferOffset` is the model's
choice (DESIGN CHOICE, assumption log 11): R15 says only that accesses require `addr + n <= 64`. -/
def Obligations.MemReadAfterMemWrite : Prop :=
  ∀ (m : Memory) (a : Nat) (v : Bytes),
    (a + v.length ≤ 64 → ∃ (m' : Memory) (r : BytesN v.length), memWrite m a v = .ok m' ∧
      memRead m' a v.length = .ok r ∧ r.toList = v ∧
      ∀ k, (k < a ∨ a + v.length ≤ k) → m'.read k = m.read k) ∧
    (64 < a + v.length → memWrite m a v = .error .bufferOffset ∧ memRead m a v.length = .error .bufferOffset)

/-! ### PRNG -/

/-- R203, R202: `MT_NEW` in every state: the seeding recurrence, `CUR = 624`, `PHASE = SEEDED`; everything else
unchanged. -/
def Obligations.MtNewSeedsByTheRecurrence : Prop :=
  ∀ (seed : Word) (s : State), ∃ w : MtWords,
    w[0] = seed ∧
    (∀ i : Fin 623, (w[i.val + 1]).toNat = (1812433253 * (w[i.val] ^^^ (w[i.val] >>> 30)).toNat + (i.val + 1)) % 2 ^ 32) ∧
    exec (.mtNew seed) s = .next { answers s .none with prng := { s := w, cur := 624, phase := .seeded } }

/-- R206: `MT_FROM` in every state: the words untouched, `CUR = 624`, `PHASE = SEEDED`; everything else unchanged. -/
def Obligations.MtFromTakesTheWords : Prop :=
  ∀ (words : MtWords) (s : State),
    exec (.mtFrom words) s = .next { answers s .none with prng := { s := words, cur := 624, phase := .seeded } }

/-- R207, R204: `MT_NEXT`: `BadPhase` without a seeded generator; on one with the cursor below 624, the tempered
word at the cursor, and the cursor advanced; at 624, first the in-place twist of all words (old words before index
227, new ones from there, and new first words for index 623), then word 0 and cursor 1. Everything else is
unchanged. -/
def Obligations.MtNextTwistsAndTempers : Prop :=
  ∀ s : State,
    (s.prng.phase = .idle → exec .mtNext s = .next (traps s .badPhase 6)) ∧
    (s.prng.phase = .seeded → ∀ h : s.prng.cur < 624,
      exec .mtNext s = .next { answers s (.word (temper s.prng.s[s.prng.cur])) with
        prng := { s.prng with cur := s.prng.cur + 1 } }) ∧
    (s.prng.phase = .seeded → s.prng.cur = 624 → ∃ w : MtWords,
      (∀ i : Fin 227, w[i.val] = twistWord s.prng.s[i.val] s.prng.s[i.val + 1] s.prng.s[i.val + 397]) ∧
      (∀ i : Fin 396, w[i.val + 227] = twistWord s.prng.s[i.val + 227] s.prng.s[i.val + 228] w[i.val]) ∧
      w[623] = twistWord s.prng.s[623] w[0] w[396] ∧
      exec .mtNext s = .next { answers s (.word (temper w[0])) with prng := { s := w, cur := 1, phase := .seeded } })

/-- R208: the stream form: from the 624 words held just after `MT_NEW` or `MT_FROM`, in every state, output number `n` is
the tempered stream word `n + 624` of the recurrence of order 624. -/
def Obligations.MtStreamForm : Prop :=
  ∀ (seed : Word) (words : MtWords) (s : State), ∀ c ∈ [Instr.mtNew seed, Instr.mtFrom words],
    ∃ (x : Nat → Word) (t0 : State), exec c s = .next t0 ∧ (∀ i : Fin 624, t0.prng.s[i] = x i.val) ∧
      (c = .mtFrom words → t0.prng.s = words) ∧
      (∀ n, x (n + 624) = twistWord (x n) (x (n + 1)) (x (n + 397))) ∧
      ∀ n, ∃ t t' : State, execAll (List.replicate n .mtNext) t0 = .next t ∧ exec .mtNext t = .next t' ∧
        t'.responses = t.responses ++ [⟨.ok, .word (temper (x (n + 624)))⟩]

/-- R212: 624 consecutive outputs, taken anywhere in the stream and untempered by the four inversions, clone the
generator: every later output of the clone is the original's. -/
def Obligations.CloneFrom624Outputs : Prop :=
  ∀ s s' : State, s.prng.phase = .seeded → s.prng.cur ≤ 624 →
    ∃ (z words : MtWords) (t t' : State),
      execAll (List.replicate 624 .mtNext) s = .next t ∧
      t.responses = s.responses ++ z.toList.map (fun w => ⟨.ok, .word w⟩) ∧
      (∀ i : Fin 624, words[i] = invertRightShift (invertLeftShift (invertLeftShift (invertRightShift z[i] 18)
        15 0xEFC60000) 7 0x9D2C5680) 11) ∧
      exec (.mtFrom words) s' = .next t' ∧
      ∀ k, ∃ (out : List Response) (e e' : State), out.length = k ∧
        execAll (List.replicate k .mtNext) t = .next e ∧ e.responses = t.responses ++ out ∧
        execAll (List.replicate k .mtNext) t' = .next e' ∧ e'.responses = t'.responses ++ out

/-- R211: the four inversion commands, in reverse tempering order, undo the tempering, and the tempering undoes
them. -/
def Obligations.UntemperUndoesTemper : Prop :=
  (∀ (x : Word) (s : State), ∃ t1 t2 t3 : Word,
    exec (.mtInvRshift 18 (temper x)) s = .next (answers s (.word t1)) ∧
    exec (.mtInvLshift 15 t1 0xEFC60000) s = .next (answers s (.word t2)) ∧
    exec (.mtInvLshift 7 t2 0x9D2C5680) s = .next (answers s (.word t3)) ∧
    exec (.mtInvRshift 11 t3) s = .next (answers s (.word x))) ∧
  ∀ z : Word, temper (invertRightShift (invertLeftShift (invertLeftShift (invertRightShift z 18) 15 0xEFC60000)
    7 0x9D2C5680) 11) = z

/-- R209: `MT_INV_RSHIFT<shift>` in every state: the top `shift` bits of the operand, each lower bit XORed with the
bit `shift` places above it in the result; it undoes `x ^ (x >> shift)` and is undone by it; no register changes. -/
def Obligations.InvertRightShiftResult : Prop :=
  ∀ (shift : Nat) (y : Word) (s : State), ShiftOk shift →
    (∃ x : Word, exec (.mtInvRshift shift y) s = .next (answers s (.word x)) ∧
      (∀ i < 32, x.getLsbD i = if i + shift > 31 then y.getLsbD i else y.getLsbD i ^^ x.getLsbD (i + shift)) ∧
      x ^^^ (x >>> shift) = y) ∧
    exec (.mtInvRshift shift (y ^^^ (y >>> shift))) s = .next (answers s (.word y))

/-- R210: `MT_INV_LSHIFT<shift>` in every state: the low `shift` bits of the operand, each higher bit XORed with the
masked bit `shift` places below it in the result; it undoes `x ^ ((x << shift) & mask)` for any mask; no register
changes. -/
def Obligations.InvertLeftShiftResult : Prop :=
  ∀ (shift : Nat) (y mask : Word) (s : State), ShiftOk shift →
    (∃ x : Word, exec (.mtInvLshift shift y mask) s = .next (answers s (.word x)) ∧
      (∀ i < 32, x.getLsbD i =
        if i < shift then y.getLsbD i else y.getLsbD i ^^ (x.getLsbD (i - shift) && mask.getLsbD i)) ∧
      x ^^^ ((x <<< shift) &&& mask) = y) ∧
    exec (.mtInvLshift shift (y ^^^ ((y <<< shift) &&& mask)) mask) s = .next (answers s (.word y))

/-! ### The whole machine -/

/-- R40: the values reset gives: the latch clear, `FCODE = 0`, every phase `IDLE`. -/
def Obligations.ResetLatchAndPhases : Prop :=
  State.reset.fault = false ∧ State.reset.fcode = 0 ∧ State.reset.sha1.phase = .idle ∧
  State.reset.md4.phase = .idle ∧ State.reset.prng.phase = .idle

/-- R40, R240, R260: the reset event, from any state, the latched one included: the latch clear, `FCODE = 0`, every
phase `IDLE`; the host's later commands stay to be issued. -/
def Obligations.ResetEventClearsTheLatch : Prop :=
  ∀ (s : State) (rest : List HostEvent), s.pending = .reset :: rest →
    ∃ t : State, step s = .next t ∧ t.fault = false ∧ t.fcode = 0 ∧ t.sha1.phase = .idle ∧ t.md4.phase = .idle ∧
      t.prng.phase = .idle ∧ t.pending = rest

/-- The invariant holds after reset. -/
def Obligations.InvAtReset : Prop := CoreInv State.reset

/-- R266, R32, R35, R23: every step keeps the invariant: the latch consistent with `FCODE`, the block buffers in
canonical form with `0 <= FILL <= 63` and the first `FILL` bytes of a live context written, the cursor in 0..624 and
above 0 once seeded. -/
def Obligations.StepKeepsInv : Prop := ∀ s t : State, CoreInv s → step s = .next t → CoreInv t

/-- R277: the hardware is never stuck: from every state that meets the invariant, with operands of the right types
presented, a step answers a next state. -/
def Obligations.NeverStuck : Prop :=
  ∀ s : State, CoreInv s → (∀ e rest, s.pending = e :: rest → Presentable e) → ∃ t, step s = .next t

/-- R70, R80: one command yields exactly one response, and is done; a result follows exactly when the status is
`OK`, and is then of the kind the table gives the opcode. -/
def Obligations.OneCommandOneResponse : Prop :=
  ∀ (s t : State) (w : BitVec 32) (ops : List Operand) (rest : List HostEvent),
    s.pending = .command w ops :: rest → step s = .next t →
    t.pending = rest ∧ ∃ r : Response, t.responses = s.responses ++ [r] ∧
      (r.status ≠ .ok → r.result = .none) ∧
      (r.status = .ok → ∃ i, decode w ops = .ok i ∧ (resultKind i.opcode).fits r.result = true)

/-- R235, R236: a command that ends with a non-`OK` status returns no result and writes no register but the latch; a
fatal status (codes 2 to 6) sets `FAULT` and loads `FCODE` with its code, and no other status touches them. -/
def Obligations.NonOkStatusWritesOnlyTheLatch : Prop :=
  ∀ (s t : State) (w : BitVec 32) (ops : List Operand) (rest : List HostEvent) (r : Response),
    s.pending = .command w ops :: rest → step s = .next t → t.responses = s.responses ++ [r] →
    (r.status ≠ .ok → r.result = .none ∧ t.sha1 = s.sha1 ∧ t.md4 = s.md4 ∧ t.prng = s.prng ∧
      t.freeCount = s.freeCount) ∧
    (2 ≤ r.status.code.toNat ∧ r.status.code.toNat ≤ 6 → t.fault = true ∧ t.fcode = r.status.code) ∧
    (¬ (2 ≤ r.status.code.toNat ∧ r.status.code.toNat ≤ 6) → t.fault = s.fault ∧ t.fcode = s.fcode)

/-- R230: which commands raise which status: each is raised by the commands of its row alone. -/
def Obligations.StatusesAndTheirCommands : Prop :=
  ∀ (i : Instr) (s t : State) (r : Response), exec i s = .next t → t.responses = s.responses ++ [r] →
    match r.status with
    | .ok => True
    | .invalidPadding => i.opcode = .pkcs7TryStrip
    | .oversizedBlock => i.opcode = .pkcs7Pad
    | .misalignedCiphertext => i.opcode ∈ [.ecbDec, .cbcDec]
    | .invalidKeyLength => i.opcode ∈ [.ecbEnc, .ecbDec, .cbcEnc, .cbcDec, .ctrXform]
    | .badPhase => i.opcode ∈ [.sha1Update, .sha1Finish, .md4Update, .md4Finish, .mtNext]
    | .illegalCommand => False
    | .faulted => False

/-- R33, R200, R25, R26: a command writes no other unit than its own: SHA1 is written by the `SHA1_` commands alone,
MD4 by the `MD4_` commands, PRNG by the `MT_` commands; and no command but a finish moves the model's count of free
values. -/
def Obligations.UnitsAreWrittenByTheirOwnCommands : Prop :=
  ∀ (i : Instr) (s t : State), exec i s = .next t →
    (unitNumber i.opcode ≠ 3 → t.sha1 = s.sha1) ∧ (unitNumber i.opcode ≠ 4 → t.md4 = s.md4) ∧
    (unitNumber i.opcode ≠ 5 → t.prng = s.prng) ∧
    (i.opcode ≠ .sha1Finish → i.opcode ≠ .md4Finish → t.freeCount = s.freeCount)

/-- R25, R26, R37: the PKCS7, MODES, padding and inversion commands are pure: in every state they complete, with a
response that does not depend on the state, and write no register but the latch. -/
def Obligations.PureCommandsDoNotReadTheState : Prop :=
  ∀ (i : Instr), i.opcode ∈ pureOpcodes → ∃ r : Response, ∀ s : State, ∃ t : State,
    exec i s = .next t ∧ t.responses = s.responses ++ [r] ∧ t.sha1 = s.sha1 ∧ t.md4 = s.md4 ∧ t.prng = s.prng

/-- R33, R200: a hash or generator command reads its own unit alone: two states that agree on it give the same
response, and the same unit afterwards but for the unspecified registers after a finish. -/
def Obligations.UnitCommandsReadTheirOwnUnit : Prop :=
  ∀ (i : Instr) (s s' t : State), exec i s = .next t →
    (unitNumber i.opcode = 3 → s.sha1 = s'.sha1 → ∃ (t' : State) (r : Response), exec i s' = .next t' ∧
      t.responses = s.responses ++ [r] ∧ t'.responses = s'.responses ++ [r] ∧
      t'.sha1.phase = t.sha1.phase ∧ (i.opcode ≠ .sha1Finish → t'.sha1 = t.sha1)) ∧
    (unitNumber i.opcode = 4 → s.md4 = s'.md4 → ∃ (t' : State) (r : Response), exec i s' = .next t' ∧
      t.responses = s.responses ++ [r] ∧ t'.responses = s'.responses ++ [r] ∧
      t'.md4.phase = t.md4.phase ∧ (i.opcode ≠ .md4Finish → t'.md4 = t.md4)) ∧
    (unitNumber i.opcode = 5 → s.prng = s'.prng → ∃ (t' : State) (r : Response), exec i s' = .next t' ∧
      t.responses = s.responses ++ [r] ∧ t'.responses = s'.responses ++ [r] ∧ t'.prng = t.prng)
end

