-- ==== Sys2Proof/Laws/Compress.lean ====
section
/-! SUPPORT. How the runs of steps of the two compression functions grow by one step. -/

namespace Sys2Proof.Machine

/-- The steps of a table and one row more: the steps of the table, then the step of that row (spec 44_md4_compress.md
R189). -/
theorem md4Steps_concat (x : Vector Word 16) (rows : List Md4Row) (row : Md4Row) (s : Nat) (v : Vector Word 4) :
    md4Steps x s (rows ++ [row]) v = md4Step x (md4Steps x s rows v) (s + rows.length) row := by
  induction rows generalizing s v with
  | nil => rfl
  | cons r rs ih =>
    rw [List.cons_append, md4Steps, md4Steps, ih, List.length_cons, Nat.add_assoc, Nat.add_comm 1]

/-- The first `i + 1` steps of SHA-1: the first `i`, then step `i` (43_sha1_compress.md R175). -/
theorem sha1_steps_succ (w : Vector Word 80) (v : Sha1Vars) (i : Fin 80) :
    ((List.finRange 80).take (i.val + 1)).foldl (sha1Step w) v =
      sha1Step w (((List.finRange 80).take i.val).foldl (sha1Step w) v) i := by
  rw [List.take_succ_eq_append_getElem (by simp), List.foldl_append]
  simp

end Sys2Proof.Machine
end

