-- ==== Sys2Proof/Laws/Decode.lean ====
section
/-! SUPPORT. What the decoder's parts can do, said once: the fields of a command word, the row a word selects, and the
binding of operands. -/

namespace Sys2Proof

theorem Opcode.ofNumber_number (o : Opcode) : Opcode.ofNumber o.number = some o := by cases o <;> decide

theorem Opcode.number_of_ofNumber {f : BitVec 8} {o : Opcode} (h : Opcode.ofNumber f = some o) : o.number = f := by
  simpa using List.find?_some h

theorem opcField_toNat (c : BitVec 32) : (opcField c).toNat = c.toNat % 256 := by
  simp [opcField]

theorem argField_toNat (c : BitVec 32) : (argField c).toNat = c.toNat / 256 % 32 := by
  simp [argField, Nat.shiftRight_eq_div_pow]

theorem zeroField_toNat (c : BitVec 32) : (zeroField c).toNat = c.toNat / 8192 := by
  have := c.isLt
  simp only [zeroField, BitVec.extractLsb'_toNat, Nat.shiftRight_eq_div_pow]
  omega

theorem zeroField_eq_zero (c : BitVec 32) : zeroField c = 0 ↔ c.toNat < 8192 := by
  rw [← BitVec.toNat_inj, zeroField_toNat]
  simp

theorem commandWord_toNat (o : Opcode) {n : Nat} (h : n < 32) :
    (commandWord o n).toNat = o.number.toNat + 256 * n := by
  have := o.number.isLt
  simp only [commandWord, BitVec.toNat_ofNat]
  omega

/-- The fields of a command word (R71). -/
theorem commandWord_fields (o : Opcode) {n : Nat} (h : n < 32) :
    zeroField (commandWord o n) = 0 ∧ opcField (commandWord o n) = o.number ∧ (argField (commandWord o n)).toNat = n := by
  have ho := o.number.isLt
  have hw := commandWord_toNat o h
  refine ⟨(zeroField_eq_zero _).2 (by omega), ?_, ?_⟩
  · rw [← BitVec.toNat_inj, opcField_toNat, hw]; omega
  · rw [argField_toNat, hw]; omega

/-- A word is its fields (R71). -/
theorem toNat_of_fields {c : BitVec 32} (h : zeroField c = 0) :
    c.toNat = (opcField c).toNat + 256 * (argField c).toNat := by
  have := (zeroField_eq_zero c).1 h
  rw [opcField_toNat, argField_toNat]
  omega

/-- When a word selects a row (R75). -/
theorem selectRow_eq_some {c : BitVec 32} {o : Opcode} :
    selectRow c = some o ↔
      zeroField c = 0 ∧ opcField c = o.number ∧ o.argKind.legal (argField c).toNat = true := by
  constructor
  · intro h
    unfold selectRow at h
    split at h
    · cases h
    · next hz =>
      split at h
      · cases h
      · next o' ho =>
        split at h
        · next hl => cases h; exact ⟨not_not.1 hz, (Opcode.number_of_ofNumber ho).symm, hl⟩
        · cases h
  · rintro ⟨hz, ho, hl⟩
    simp [selectRow, hz, ho, Opcode.ofNumber_number, hl]

theorem bindBytes_some {f : Bytes → Instr} {ops : List Operand} {i : Instr} (h : bindBytes f ops = some i) :
    ∃ d, ops = [.bytes d] ∧ i = f d := by
  unfold bindBytes at h
  split at h
  · exact ⟨_, rfl, (Option.some.inj h).symm⟩
  · cases h

theorem bindKeyData_some {f : Bytes → Bytes → Instr} {ops : List Operand} {i : Instr} (h : bindKeyData f ops = some i) :
    ∃ k d, ops = [.bytes k, .bytes d] ∧ i = f k d := by
  unfold bindKeyData at h
  split at h
  · exact ⟨_, _, rfl, (Option.some.inj h).symm⟩
  · cases h

theorem bindKeyIvData_some {f : Bytes → Block → Bytes → Instr} {ops : List Operand} {i : Instr} (h : bindKeyIvData f ops = some i) :
    ∃ k v d, ops = [.bytes k, .bytes16 v, .bytes d] ∧ i = f k v d := by
  unfold bindKeyIvData at h
  split at h
  · exact ⟨_, _, _, rfl, (Option.some.inj h).symm⟩
  · cases h

theorem bindKeyNonceData_some {f : Bytes → BytesN 8 → Bytes → Instr} {ops : List Operand} {i : Instr} (h : bindKeyNonceData f ops = some i) :
    ∃ k v d, ops = [.bytes k, .bytes8 v, .bytes d] ∧ i = f k v d := by
  unfold bindKeyNonceData at h
  split at h
  · exact ⟨_, _, _, rfl, (Option.some.inj h).symm⟩
  · cases h

theorem bindNothing_some {j : Instr} {ops : List Operand} {i : Instr} (h : bindNothing j ops = some i) :
    ops = [] ∧ i = j := by
  unfold bindNothing at h
  split at h
  · exact ⟨rfl, (Option.some.inj h).symm⟩
  · cases h

theorem bindDigest20_some {f : BytesN 20 → DWord → Instr} {ops : List Operand} {i : Instr} (h : bindDigest20 f ops = some i) :
    ∃ d c, ops = [.bytes20 d, .u64 c] ∧ i = f d c := by
  unfold bindDigest20 at h
  split at h
  · exact ⟨_, _, rfl, (Option.some.inj h).symm⟩
  · cases h

theorem bindDigest16_some {f : BytesN 16 → DWord → Instr} {ops : List Operand} {i : Instr} (h : bindDigest16 f ops = some i) :
    ∃ d c, ops = [.bytes16 d, .u64 c] ∧ i = f d c := by
  unfold bindDigest16 at h
  split at h
  · exact ⟨_, _, rfl, (Option.some.inj h).symm⟩
  · cases h

theorem bindU64_some {f : DWord → Instr} {ops : List Operand} {i : Instr} (h : bindU64 f ops = some i) :
    ∃ l, ops = [.u64 l] ∧ i = f l := by
  unfold bindU64 at h
  split at h
  · exact ⟨_, rfl, (Option.some.inj h).symm⟩
  · cases h

theorem bindU32_some {f : Word → Instr} {ops : List Operand} {i : Instr} (h : bindU32 f ops = some i) :
    ∃ v, ops = [.u32 v] ∧ i = f v := by
  unfold bindU32 at h
  split at h
  · exact ⟨_, rfl, (Option.some.inj h).symm⟩
  · cases h

theorem bindU32U32_some {f : Word → Word → Instr} {ops : List Operand} {i : Instr} (h : bindU32U32 f ops = some i) :
    ∃ v m, ops = [.u32 v, .u32 m] ∧ i = f v m := by
  unfold bindU32U32 at h
  split at h
  · exact ⟨_, _, rfl, (Option.some.inj h).symm⟩
  · cases h

theorem bindWords_some {f : MtWords → Instr} {ops : List Operand} {i : Instr} (h : bindWords f ops = some i) :
    ∃ w, ops = [.words624 w] ∧ i = f w := by
  unfold bindWords at h
  split at h
  · exact ⟨_, rfl, (Option.some.inj h).symm⟩
  · cases h

/-- What binding operands gives: the row's opcode, the operands as they came, and the immediate where the row has one. -/
theorem bindOperands_some {o : Opcode} {n : Nat} {ops : List Operand} {i : Instr} (h : bindOperands o n ops = some i) :
    i.opcode = o ∧ i.operands = ops ∧ i.arg = (if o.argKind = .zero then 0 else n) := by
  cases o
  case pkcs7Pad | pkcs7Strip | pkcs7TryStrip | sha1Update | md4Update =>
    obtain ⟨d, rfl, rfl⟩ := bindBytes_some h
    exact ⟨rfl, rfl, rfl⟩
  case ecbEnc | ecbDec =>
    obtain ⟨k, d, rfl, rfl⟩ := bindKeyData_some h
    exact ⟨rfl, rfl, rfl⟩
  case cbcEnc | cbcDec =>
    obtain ⟨k, v, d, rfl, rfl⟩ := bindKeyIvData_some h
    exact ⟨rfl, rfl, rfl⟩
  case ctrXform =>
    obtain ⟨k, v, d, rfl, rfl⟩ := bindKeyNonceData_some h
    exact ⟨rfl, rfl, rfl⟩
  case sha1Init | sha1Finish | md4Init | md4Finish | mtNext =>
    obtain ⟨rfl, rfl⟩ := bindNothing_some h
    exact ⟨rfl, rfl, rfl⟩
  case sha1InitState =>
    obtain ⟨d, c, rfl, rfl⟩ := bindDigest20_some h
    exact ⟨rfl, rfl, rfl⟩
  case sha1Padding | md4Padding =>
    obtain ⟨l, rfl, rfl⟩ := bindU64_some h
    exact ⟨rfl, rfl, rfl⟩
  case md4InitState =>
    obtain ⟨d, c, rfl, rfl⟩ := bindDigest16_some h
    exact ⟨rfl, rfl, rfl⟩
  case mtNew | mtInvRshift =>
    obtain ⟨v, rfl, rfl⟩ := bindU32_some h
    exact ⟨rfl, rfl, rfl⟩
  case mtFrom =>
    obtain ⟨w, rfl, rfl⟩ := bindWords_some h
    exact ⟨rfl, rfl, rfl⟩
  case mtInvLshift =>
    obtain ⟨v, m, rfl, rfl⟩ := bindU32U32_some h
    exact ⟨rfl, rfl, rfl⟩

/-- Well-formedness is the range check of the opcode's immediate. -/
theorem wellFormed_iff_legal (i : Instr) : WellFormed i ↔ i.opcode.argKind.legal i.arg = true := by
  cases i
  case pkcs7Pad | pkcs7Strip | pkcs7TryStrip | mtInvRshift | mtInvLshift => exact decide_eq_true_iff.symm
  all_goals exact ⟨fun _ => rfl, fun _ => trivial⟩

end Sys2Proof
end

