-- ==== Sys2Proof/Laws/Memory.lean ====
section
/-! SUPPORT. The laws of block buffers: what a read after a write gives, that every write keeps the canonical form, and
what `MemRead` and `MemWrite` can answer. -/

namespace Sys2Proof.Machine

@[simp] theorem Memory.read_nil (a : Nat) : Memory.read [] a = none := rfl

theorem Memory.read_write_same (m : Memory) (a : Nat) (b : Byte) : (m.write a b).read a = some b := by
  induction m with
  | nil => simp [Memory.write, Memory.read]
  | cons c m ih =>
    obtain ⟨k, c⟩ := c
    rcases Nat.lt_trichotomy a k with h | h | h
    · simp [Memory.write, Memory.read, h]
    · simp [Memory.write, Memory.read, h]
    · simp [Memory.write, Memory.read, Nat.not_lt.2 h.le, h.ne, h.ne', ih]

theorem Memory.read_write_other (m : Memory) {a k : Nat} (b : Byte) (h : k ≠ a) :
    (m.write a b).read k = m.read k := by
  induction m with
  | nil => simp [Memory.write, Memory.read, h.symm]
  | cons c m ih =>
    obtain ⟨j, c⟩ := c
    rcases Nat.lt_trichotomy a j with hj | hj | hj
    · simp [Memory.write, Memory.read, hj, h.symm]
    · subst hj; simp [Memory.write, Memory.read, h.symm]
    · simp [Memory.write, Memory.read, Nat.not_lt.2 hj.le, hj.ne', ih]

/-- Read after write, at every offset. -/
theorem Memory.read_write (m : Memory) (a k : Nat) (b : Byte) :
    (m.write a b).read k = if k = a then some b else m.read k := by
  split
  · next h => rw [h, Memory.read_write_same]
  · next h => exact Memory.read_write_other m b h

/-- The offsets listed after a write are the one written and those listed before. -/
theorem Memory.mem_write {m : Memory} {a : Nat} {b : Byte} {c : Host.Cell} (h : c ∈ m.write a b) :
    c = (a, b) ∨ c ∈ m := by
  induction m with
  | nil => simpa [Memory.write] using h
  | cons d m ih =>
    obtain ⟨k, d⟩ := d
    simp only [Memory.write] at h
    split_ifs at h with h1 h2
    · simpa using h
    · rcases List.mem_cons.1 h with h | h
      · exact .inl h
      · exact .inr (List.mem_cons_of_mem _ h)
    · rcases List.mem_cons.1 h with h | h
      · exact .inr (h ▸ List.mem_cons_self)
      · exact (ih h).imp_right (List.mem_cons_of_mem _)

/-- A write inside 0..63 keeps the canonical form. -/
theorem Memory.write_wf {m : Memory} {a : Nat} (b : Byte) (ha : a < bufSize) (hm : m.wf) : (m.write a b).wf := by
  refine ⟨?_, fun c hc => ?_⟩
  · have hp := hm.1
    clear hm ha
    induction m with
    | nil => simp [Memory.write]
    | cons d m ih =>
      obtain ⟨k, d⟩ := d
      have ⟨hd, hr⟩ := List.pairwise_cons.1 hp
      simp only [Memory.write]
      split_ifs with h1 h2
      · refine List.pairwise_cons.2 ⟨fun c hc => ?_, hp⟩
        rcases List.mem_cons.1 hc with rfl | hc
        · exact h1
        · exact h1.trans (hd c hc)
      · exact List.pairwise_cons.2 ⟨fun c hc => h2 ▸ hd c hc, hr⟩
      · refine List.pairwise_cons.2 ⟨fun c hc => ?_, ih hr⟩
        rcases Memory.mem_write hc with rfl | hc
        · exact lt_of_le_of_ne (Nat.not_lt.1 h1) (Ne.symm h2)
        · exact hd c hc
  · rcases Memory.mem_write hc with rfl | hc
    · exact ha
    · exact hm.2 c hc

theorem Memory.writeBytes_wf {m : Memory} (v : Bytes) : ∀ {a : Nat}, a + v.length ≤ bufSize → m.wf →
    (m.writeBytes a v).wf := by
  induction v generalizing m with
  | nil => exact fun _ hm => hm
  | cons b bs ih =>
    intro a ha hm
    rw [List.length_cons] at ha
    have hb : (m.write a b).wf := Memory.write_wf b (by unfold bufSize at ha ⊢; omega) hm
    exact ih (m := m.write a b) (a := a + 1) (by omega) hb

/-- `MemWrite` keeps the canonical form. -/
theorem memWrite_wf {m m' : Memory} {a : Nat} {v : Bytes} (h : memWrite m a v = .ok m') (hm : m.wf) : m'.wf := by
  unfold memWrite at h
  split at h
  · next ha => cases h; exact Memory.writeBytes_wf v ha hm
  · cases h

/-- The single-byte `MemWrite` of `Push`: what it answers (spec 20_memory.md R52). -/
theorem memWrite_byte (m : Memory) (a : Nat) (b : Byte) :
    memWrite m a [b] = if a < bufSize then .ok (m.write a b) else .error .bufferOffset := by
  by_cases h : a < bufSize
  · rw [if_pos h]; exact if_pos h
  · rw [if_neg h]; exact if_neg h

/-- What a successful `MemRead` gives: the access is inside the buffer, and byte `i` is the byte at `a + i`. -/
theorem memRead_spec {m : Memory} {a n : Nat} {v : BytesN n} (h : memRead m a n = .ok v) :
    a + n ≤ bufSize ∧ ∀ i : Fin n, m.read (a + i.val) = some v[i] := by
  unfold memRead at h
  split at h
  · next ha =>
    split at h
    · next hr => cases h; exact ⟨ha, fun i => by simp⟩
    · cases h
  · cases h

/-- When `MemRead` succeeds: inside the buffer, on bytes that have been written. -/
theorem memRead_ok {m : Memory} {a n : Nat} {v : BytesN n} (ha : a + n ≤ bufSize)
    (hv : ∀ i : Fin n, m.read (a + i.val) = some v[i]) : memRead m a n = .ok v := by
  have hr : ∀ i : Fin n, (m.read (a + i.val)).isSome = true := fun i => by simp [hv i]
  rw [memRead, if_pos ha, dif_pos hr]
  congr 1
  refine Vector.ext fun i hi => ?_
  simpa using (Option.get_of_eq_some _ (hv ⟨i, hi⟩))

end Sys2Proof.Machine
end

