-- ==== Sys2Proof/Laws/State.lean ====
section
/-! SUPPORT. One lemma for each field of State and each update of it, so that no proof unfolds a record update. -/

namespace Sys2Proof.Machine

@[simp] theorem State.latch_fault (s : State) (st : Status) : (s.latch st).fault = true := rfl
@[simp] theorem State.latch_fcode (s : State) (st : Status) : (s.latch st).fcode = st.code := rfl
@[simp] theorem State.latch_sha1 (s : State) (st : Status) : (s.latch st).sha1 = s.sha1 := rfl
@[simp] theorem State.latch_md4 (s : State) (st : Status) : (s.latch st).md4 = s.md4 := rfl
@[simp] theorem State.latch_prng (s : State) (st : Status) : (s.latch st).prng = s.prng := rfl
@[simp] theorem State.latch_pending (s : State) (st : Status) : (s.latch st).pending = s.pending := rfl
@[simp] theorem State.latch_responses (s : State) (st : Status) : (s.latch st).responses = s.responses := rfl
@[simp] theorem State.latch_freeCount (s : State) (st : Status) : (s.latch st).freeCount = s.freeCount := rfl

@[simp] theorem State.setSha1_fault (s : State) (u : HashUnit 5) : (s.setSha1 u).fault = s.fault := rfl
@[simp] theorem State.setSha1_fcode (s : State) (u : HashUnit 5) : (s.setSha1 u).fcode = s.fcode := rfl
@[simp] theorem State.setSha1_sha1 (s : State) (u : HashUnit 5) : (s.setSha1 u).sha1 = u := rfl
@[simp] theorem State.setSha1_md4 (s : State) (u : HashUnit 5) : (s.setSha1 u).md4 = s.md4 := rfl
@[simp] theorem State.setSha1_prng (s : State) (u : HashUnit 5) : (s.setSha1 u).prng = s.prng := rfl
@[simp] theorem State.setSha1_pending (s : State) (u : HashUnit 5) : (s.setSha1 u).pending = s.pending := rfl
@[simp] theorem State.setSha1_responses (s : State) (u : HashUnit 5) : (s.setSha1 u).responses = s.responses := rfl
@[simp] theorem State.setSha1_freeCount (s : State) (u : HashUnit 5) : (s.setSha1 u).freeCount = s.freeCount := rfl

@[simp] theorem State.setMd4_fault (s : State) (u : HashUnit 4) : (s.setMd4 u).fault = s.fault := rfl
@[simp] theorem State.setMd4_fcode (s : State) (u : HashUnit 4) : (s.setMd4 u).fcode = s.fcode := rfl
@[simp] theorem State.setMd4_sha1 (s : State) (u : HashUnit 4) : (s.setMd4 u).sha1 = s.sha1 := rfl
@[simp] theorem State.setMd4_md4 (s : State) (u : HashUnit 4) : (s.setMd4 u).md4 = u := rfl
@[simp] theorem State.setMd4_prng (s : State) (u : HashUnit 4) : (s.setMd4 u).prng = s.prng := rfl
@[simp] theorem State.setMd4_pending (s : State) (u : HashUnit 4) : (s.setMd4 u).pending = s.pending := rfl
@[simp] theorem State.setMd4_responses (s : State) (u : HashUnit 4) : (s.setMd4 u).responses = s.responses := rfl
@[simp] theorem State.setMd4_freeCount (s : State) (u : HashUnit 4) : (s.setMd4 u).freeCount = s.freeCount := rfl

@[simp] theorem State.setPrng_fault (s : State) (p : Prng) : (s.setPrng p).fault = s.fault := rfl
@[simp] theorem State.setPrng_fcode (s : State) (p : Prng) : (s.setPrng p).fcode = s.fcode := rfl
@[simp] theorem State.setPrng_sha1 (s : State) (p : Prng) : (s.setPrng p).sha1 = s.sha1 := rfl
@[simp] theorem State.setPrng_md4 (s : State) (p : Prng) : (s.setPrng p).md4 = s.md4 := rfl
@[simp] theorem State.setPrng_prng (s : State) (p : Prng) : (s.setPrng p).prng = p := rfl
@[simp] theorem State.setPrng_pending (s : State) (p : Prng) : (s.setPrng p).pending = s.pending := rfl
@[simp] theorem State.setPrng_responses (s : State) (p : Prng) : (s.setPrng p).responses = s.responses := rfl
@[simp] theorem State.setPrng_freeCount (s : State) (p : Prng) : (s.setPrng p).freeCount = s.freeCount := rfl

@[simp] theorem State.bumpFree_fault (s : State) : (s.bumpFree).fault = s.fault := rfl
@[simp] theorem State.bumpFree_fcode (s : State) : (s.bumpFree).fcode = s.fcode := rfl
@[simp] theorem State.bumpFree_sha1 (s : State) : (s.bumpFree).sha1 = s.sha1 := rfl
@[simp] theorem State.bumpFree_md4 (s : State) : (s.bumpFree).md4 = s.md4 := rfl
@[simp] theorem State.bumpFree_prng (s : State) : (s.bumpFree).prng = s.prng := rfl
@[simp] theorem State.bumpFree_pending (s : State) : (s.bumpFree).pending = s.pending := rfl
@[simp] theorem State.bumpFree_responses (s : State) : (s.bumpFree).responses = s.responses := rfl
@[simp] theorem State.bumpFree_freeCount (s : State) : (s.bumpFree).freeCount = s.freeCount + 1 := rfl

@[simp] theorem State.respond_fault (s : State) (r : Response) : (s.respond r).fault = s.fault := rfl
@[simp] theorem State.respond_fcode (s : State) (r : Response) : (s.respond r).fcode = s.fcode := rfl
@[simp] theorem State.respond_sha1 (s : State) (r : Response) : (s.respond r).sha1 = s.sha1 := rfl
@[simp] theorem State.respond_md4 (s : State) (r : Response) : (s.respond r).md4 = s.md4 := rfl
@[simp] theorem State.respond_prng (s : State) (r : Response) : (s.respond r).prng = s.prng := rfl
@[simp] theorem State.respond_pending (s : State) (r : Response) : (s.respond r).pending = s.pending.tail := rfl
@[simp] theorem State.respond_responses (s : State) (r : Response) : (s.respond r).responses = s.responses ++ [r] := rfl
@[simp] theorem State.respond_freeCount (s : State) (r : Response) : (s.respond r).freeCount = s.freeCount := rfl

@[simp] theorem State.ok_fault (s : State) (r : Result) : (s.ok r).fault = s.fault := rfl
@[simp] theorem State.ok_fcode (s : State) (r : Result) : (s.ok r).fcode = s.fcode := rfl
@[simp] theorem State.ok_sha1 (s : State) (r : Result) : (s.ok r).sha1 = s.sha1 := rfl
@[simp] theorem State.ok_md4 (s : State) (r : Result) : (s.ok r).md4 = s.md4 := rfl
@[simp] theorem State.ok_prng (s : State) (r : Result) : (s.ok r).prng = s.prng := rfl
@[simp] theorem State.ok_pending (s : State) (r : Result) : (s.ok r).pending = s.pending.tail := rfl
@[simp] theorem State.ok_responses (s : State) (r : Result) : (s.ok r).responses = s.responses ++ [⟨.ok, r⟩] := rfl
@[simp] theorem State.ok_freeCount (s : State) (r : Result) : (s.ok r).freeCount = s.freeCount := rfl

@[simp] theorem State.resetEvent_fault (s : State) : (s.resetEvent).fault = false := rfl
@[simp] theorem State.resetEvent_fcode (s : State) : (s.resetEvent).fcode = 0 := rfl
@[simp] theorem State.resetEvent_sha1 (s : State) : (s.resetEvent).sha1 = HashUnit.reset 5 := rfl
@[simp] theorem State.resetEvent_md4 (s : State) : (s.resetEvent).md4 = HashUnit.reset 4 := rfl
@[simp] theorem State.resetEvent_prng (s : State) : (s.resetEvent).prng = Prng.reset := rfl
@[simp] theorem State.resetEvent_pending (s : State) : (s.resetEvent).pending = s.pending.tail := rfl
@[simp] theorem State.resetEvent_responses (s : State) : (s.resetEvent).responses = s.responses := rfl
@[simp] theorem State.resetEvent_freeCount (s : State) : (s.resetEvent).freeCount = s.freeCount := rfl

@[simp] theorem State.raise_fault (s : State) (st : Status) : (s.raise st).fault = (st.fatal || s.fault) := by cases st <;> rfl
@[simp] theorem State.raise_fcode (s : State) (st : Status) : (s.raise st).fcode = (if st.fatal then st.code else s.fcode) := by cases st <;> rfl
@[simp] theorem State.raise_sha1 (s : State) (st : Status) : (s.raise st).sha1 = s.sha1 := by cases st <;> rfl
@[simp] theorem State.raise_md4 (s : State) (st : Status) : (s.raise st).md4 = s.md4 := by cases st <;> rfl
@[simp] theorem State.raise_prng (s : State) (st : Status) : (s.raise st).prng = s.prng := by cases st <;> rfl
@[simp] theorem State.raise_pending (s : State) (st : Status) : (s.raise st).pending = s.pending.tail := by cases st <;> rfl
@[simp] theorem State.raise_responses (s : State) (st : Status) : (s.raise st).responses = s.responses ++ [⟨st, .none⟩] := by cases st <;> rfl
@[simp] theorem State.raise_freeCount (s : State) (st : Status) : (s.raise st).freeCount = s.freeCount := by cases st <;> rfl

/-- Two states with equal fields are equal. -/
theorem State.ext_fields {s t : State} (h1 : s.fault = t.fault) (h2 : s.fcode = t.fcode) (h3 : s.sha1 = t.sha1)
    (h4 : s.md4 = t.md4) (h5 : s.prng = t.prng) (h6 : s.pending = t.pending) (h7 : s.responses = t.responses)
    (h8 : s.freeCount = t.freeCount) : s = t := by
  cases s; cases t; simp_all

/-- The two non-fatal statuses that are raised change no register: only the response is given. -/
theorem State.raise_of_not_fatal (s : State) (st : Status) (h : st.fatal = false) :
    s.raise st = s.respond ⟨st, .none⟩ := by
  simp [State.raise, h]

/-- A fatal status sets the latch and nothing else (spec 60_exceptions.md R235, R236). -/
theorem State.raise_of_fatal (s : State) (st : Status) (h : st.fatal = true) :
    s.raise st = (s.latch st).respond ⟨st, .none⟩ := by
  simp [State.raise, h]

end Sys2Proof.Machine
end

