-- ==== Sys2Proof/Laws/Hash.lean ====
section
/-! SUPPORT. What the shared operations of the hash shell can do, said once: `Push` on a buffer that holds known bytes,
what a successful `Push` leaves alone, and that `Push` keeps a unit well formed. -/

namespace Sys2Proof.Machine

open Sys2Proof.Safety

variable {nw : Nat} (alg : HashAlg nw)

/-- A live, well-formed unit holds some byte string. -/
theorem exists_buffered {u : HashUnit nw} (h : HashOk u) (hl : u.phase.live = true) : ∃ b, Buffered u b := by
  have hf := h.2.2 hl
  refine ⟨List.ofFn fun i : Fin u.fill => (u.buf.read i.val).get (hf i.val i.isLt), by simp, ?_, fun a ha => ?_⟩
  · simpa using Nat.lt_of_le_of_lt h.2.1 (by decide : (63 : Nat) < bufSize)
  · simp

/-- Two byte strings that one buffer holds are equal. -/
theorem Buffered.unique {u : HashUnit nw} {b c : Bytes} (hb : Buffered u b) (hc : Buffered u c) : b = c := by
  have hl : b.length = c.length := hb.1.symm.trans hc.1
  refine List.ext_getElem hl fun a h1 h2 => ?_
  exact Option.some.inj ((hb.2.2 a h1).symm.trans (hc.2.2 a h2))

/-- A unit whose `FILL` is 0 holds the empty string. -/
theorem buffered_nil {u : HashUnit nw} (h : u.fill = 0) : Buffered u [] :=
  ⟨h, by decide, fun a ha => absurd ha (Nat.not_lt_zero a)⟩

/-- Everything a successful `Push` can do (spec 42_hash_engine.md R143): `TOTAL` and `PHASE` stay, the byte is stored at
`FILL`, and either the buffer is not full and `FILL` advances, or it was filled and has been compressed. -/
theorem push_cases {u u' : HashUnit nw} {b : Byte} (h : push alg u b = .ok u') :
    u.fill < bufSize ∧ u'.buf = u.buf.write u.fill b ∧ u'.total = u.total ∧ u'.phase = u.phase ∧
    ((u.fill + 1 ≠ bufSize ∧ u'.fill = u.fill + 1 ∧ u'.h = u.h) ∨
      (u.fill + 1 = bufSize ∧ u'.fill = 0 ∧
        ∃ block : BytesN 64, (∀ i : Fin 64, u'.buf.read i.val = some block[i]) ∧ u'.h = alg.compress u.h block)) := by
  unfold push at h
  rw [memWrite_byte] at h
  split_ifs at h with hf h64
  · dsimp only at h
    split at h
    · cases h
    · next block hb =>
      cases h
      exact ⟨hf, rfl, rfl, rfl, .inr ⟨h64, rfl, block, fun i => by simpa using (memRead_spec hb).2 i, rfl⟩⟩
  · cases h
    exact ⟨hf, rfl, rfl, rfl, .inl ⟨h64, rfl, rfl⟩⟩

/-- `Push` on a buffer that holds `b`: it succeeds, and afterwards holds `b` with the byte appended, or, when that makes
64 bytes, nothing, the block having been compressed (R143). -/
theorem push_buffered {u : HashUnit nw} {b : Bytes} (h : Buffered u b) (x : Byte) :
    ∃ u', push alg u x = .ok u' ∧ u'.buf = u.buf.write u.fill x ∧ u'.total = u.total ∧ u'.phase = u.phase ∧
      ((b.length + 1 < bufSize ∧ u'.h = u.h ∧ Buffered u' (b ++ [x])) ∨
        (∃ block : BytesN 64, block.toList = b ++ [x] ∧ u'.h = alg.compress u.h block ∧ Buffered u' [])) := by
  obtain ⟨hf, hl, hr⟩ := h
  have hread : ∀ (a : Nat) (ha : a < (b ++ [x]).length), (u.buf.write u.fill x).read a = some (b ++ [x])[a] := by
    intro a ha
    rw [Memory.read_write, List.getElem_append]
    by_cases hab : a < b.length
    · rw [if_neg (by omega), dif_pos hab]
      exact hr a hab
    · rw [List.length_append, List.length_singleton] at ha
      rw [if_pos (by omega), dif_neg hab]
      simp
  have hw : memWrite u.buf u.fill [x] = .ok (u.buf.write u.fill x) := by
    rw [memWrite_byte, if_pos (by omega)]
  by_cases h64 : b.length + 1 = bufSize
  · have hblen : (b ++ [x]).length = 64 := by rw [List.length_append]; exact h64
    have hm : memRead (u.buf.write u.fill x) 0 64 = .ok (⟨⟨b ++ [x]⟩, hblen⟩ : BytesN 64) := by
      refine memRead_ok (by decide) fun i => ?_
      have := hread i.val (by rw [hblen]; exact i.isLt)
      simpa using this
    refine ⟨{ u with h := alg.compress u.h ⟨⟨b ++ [x]⟩, hblen⟩, buf := u.buf.write u.fill x, fill := 0 },
      ?_, rfl, rfl, rfl, .inr ⟨_, rfl, rfl, buffered_nil rfl⟩⟩
    simp only [push, hw, hm]
    rw [if_pos (by omega)]
  · refine ⟨{ u with buf := u.buf.write u.fill x, fill := u.fill + 1 }, ?_, rfl, rfl, rfl, .inl ⟨by omega, rfl, ?_, ?_, hread⟩⟩
    · simp only [push, hw]
      rw [if_neg (by omega)]
    · simp [hf]
    · simp only [List.length_append, List.length_singleton]; omega

/-- `Push` on a buffer that holds a string moves the cursor on modulo 64 (R143). -/
theorem push_fill {u : HashUnit nw} {held : Bytes} (h : Buffered u held) (x : Byte) :
    ∃ (v : HashUnit nw) (held' : Bytes), push alg u x = .ok v ∧ Buffered v held' ∧ v.fill = (u.fill + 1) % 64 := by
  obtain ⟨v, hv, -, -, -, ⟨hl, -, hb⟩ | ⟨block, hl, -, hb⟩⟩ := push_buffered alg h x
  · refine ⟨v, _, hv, hb, ?_⟩
    have := hb.1
    rw [List.length_append, List.length_singleton, ← h.1] at this
    rw [← h.1] at hl
    unfold bufSize at hl
    omega
  · refine ⟨v, _, hv, hb, ?_⟩
    have h64 := congrArg List.length hl
    rw [block.length_toList, List.length_append, List.length_singleton, ← h.1] at h64
    rw [hb.1, ← h64]
    rfl

/-- `pushAll` over a joined byte string is `pushAll` over its two parts (R145). -/
theorem pushAll_append (u : HashUnit nw) (a b : Bytes) :
    pushAll alg u (a ++ b) = (pushAll alg u a).bind fun u' => pushAll alg u' b := by
  induction a generalizing u with
  | nil => rfl
  | cons x xs ih =>
    simp only [List.cons_append, pushAll]
    cases push alg u x with
    | error e => rfl
    | ok u' => exact ih u'

/-- `Push` neither reads nor writes `TOTAL` and `PHASE` (R143). -/
theorem pushAll_setTotal {u u' : HashUnit nw} {data : Bytes} (h : pushAll alg u data = .ok u') (total : DWord)
    (phase : HashPhase) :
    pushAll alg { u with total := total, phase := phase } data = .ok { u' with total := total, phase := phase } := by
  have hpush : ∀ (v : HashUnit nw) (x : Byte), push alg { v with total := total, phase := phase } x =
      (push alg v x).map fun w => { w with total := total, phase := phase } := by
    intro v x
    unfold push
    dsimp only
    rcases memWrite v.buf v.fill [x] with e | m
    · rfl
    · dsimp only
      split_ifs
      · rcases memRead m 0 64 with e | block <;> rfl
      · rfl
  induction data generalizing u with
  | nil => cases h; rfl
  | cons x xs ih =>
    simp only [pushAll] at h ⊢
    rw [hpush]
    rcases hq : push alg u x with e | q
    · rw [hq] at h; cases h
    · rw [hq] at h; exact ih h

/-- Blocks joined one after the other. -/
theorem joined_cons {k : Nat} (b : BytesN k) (bs : List (BytesN k)) : joined (b :: bs) = b.toList ++ joined bs := rfl

theorem joined_length {k : Nat} (bs : List (BytesN k)) : (joined bs).length = k * bs.length := by
  induction bs with
  | nil => rfl
  | cons b bs ih =>
    rw [joined_cons, List.length_append, ih, b.length_toList, List.length_cons, Nat.mul_succ, Nat.add_comm]

/-- `Push` over a byte string on a buffer that holds `held` (R143, R145): it succeeds; the bytes held, then the string,
are whole blocks, compressed in order, and a rest that the buffer then holds. -/
theorem pushAll_buffered {u : HashUnit nw} {held : Bytes} (h : Buffered u held) (data : Bytes) :
    ∃ (u' : HashUnit nw) (rest : Bytes) (blocks : List (BytesN 64)), pushAll alg u data = .ok u' ∧
      held ++ data = joined blocks ++ rest ∧ Buffered u' rest ∧ u'.h = blocks.foldl alg.compress u.h ∧
      u'.total = u.total ∧ u'.phase = u.phase := by
  induction data generalizing u held with
  | nil => exact ⟨u, held, [], rfl, by simp [joined], h, rfl, rfl, rfl⟩
  | cons x xs ih =>
    obtain ⟨v, hv, -, ht, hp, ⟨-, hh, hb⟩ | ⟨block, hblock, hh, hb⟩⟩ := push_buffered alg h x
    · obtain ⟨u', rest, blocks, hu, hj, hr, hf, ht', hp'⟩ := ih hb
      refine ⟨u', rest, blocks, by simp only [pushAll, hv, hu], ?_, hr, by rw [hf, hh], ht'.trans ht, hp'.trans hp⟩
      rw [← hj, List.append_assoc, List.singleton_append]
    · obtain ⟨u', rest, blocks, hu, hj, hr, hf, ht', hp'⟩ := ih hb
      refine ⟨u', rest, block :: blocks, by simp only [pushAll, hv, hu], ?_, hr, by rw [hf, hh]; rfl, ht'.trans ht,
        hp'.trans hp⟩
      rw [joined_cons, hblock, List.append_assoc, ← hj]
      simp

/-- Which offsets `Push` over a byte string can write: byte `j` goes to offset `(FILL + j) mod 64` (R143, R145). -/
theorem pushAll_frame {u u' : HashUnit nw} {data : Bytes} (h : pushAll alg u data = .ok u') (hf : u.fill < bufSize)
    {a : Nat} (ha : ∀ j < data.length, a ≠ (u.fill + j) % 64) : u'.buf.read a = u.buf.read a := by
  induction data generalizing u with
  | nil => cases h; rfl
  | cons x xs ih =>
    simp only [pushAll] at h
    split at h
    · cases h
    · next v hv =>
      obtain ⟨-, hb, -, -, hcase⟩ := push_cases alg hv
      have h0 := ha 0 (Nat.zero_lt_succ _)
      have hrw : v.buf.read a = u.buf.read a := by
        rw [hb, Memory.read_write_other]
        rw [Nat.add_zero, Nat.mod_eq_of_lt hf] at h0
        exact h0
      have hfill : v.fill = (u.fill + 1) % 64 := by
        unfold bufSize at hf hcase
        rcases hcase with ⟨hne, hv, -⟩ | ⟨he, hv, -⟩ <;> omega
      rw [ih h (by unfold bufSize; omega) fun j hj => ?_, hrw]
      have := ha (j + 1) (Nat.succ_lt_succ hj)
      omega

/-- `Push` keeps a unit's buffer canonical and its cursor in 0..63. -/
theorem pushAll_wf {u u' : HashUnit nw} {data : Bytes} (h : pushAll alg u data = .ok u') (hm : u.buf.wf)
    (hf : u.fill < bufSize) : u'.buf.wf ∧ u'.fill < bufSize := by
  induction data generalizing u with
  | nil => cases h; exact ⟨hm, hf⟩
  | cons x xs ih =>
    simp only [pushAll] at h
    split at h
    · cases h
    · next v hv =>
      obtain ⟨-, hb, -, -, hcase⟩ := push_cases alg hv
      refine ih h (hb ▸ Memory.write_wf x hf hm) ?_
      unfold bufSize at hf hcase ⊢
      rcases hcase with ⟨hne, hv, -⟩ | ⟨he, hv, -⟩ <;> omega

/-- The zero fill on a buffer that holds `held`, with turns enough: it pushes zeros until `FILL` is 56 (R147). -/
theorem zeroFill_eq {u : HashUnit nw} {held : Bytes} (h : Buffered u held) {turns : Nat}
    (ht : (120 - u.fill) % 64 ≤ turns) :
    zeroFill alg turns u = pushAll alg u (List.replicate ((120 - u.fill) % 64) 0) := by
  induction turns generalizing u held with
  | zero =>
    rw [Nat.le_zero.1 ht]
    rfl
  | succ turns ih =>
    have hlt : u.fill < 64 := h.1 ▸ h.2.1
    by_cases h56 : u.fill = 56
    · simp [zeroFill, h56, pushAll]
    · obtain ⟨v, held', hv, hb, hfill⟩ := push_fill alg h 0
      obtain ⟨n, hn⟩ : ∃ n, (120 - u.fill) % 64 = n + 1 := ⟨(120 - u.fill) % 64 - 1, by omega⟩
      rw [hn, List.replicate_succ]
      simp only [zeroFill, h56, if_false, hv, pushAll]
      rw [ih hb (by omega), show (120 - v.fill) % 64 = n by omega]

/-- The padding that a finish pushes onto a buffer that holds `held`: the marker, the zero fill and the length field, as
one string (R147). -/
theorem pushPadding_eq {u : HashUnit nw} {held : Bytes} (h : Buffered u held) :
    pushPadding alg u = pushAll alg u
      ([0x80] ++ List.replicate ((119 - u.fill) % 64) 0 ++ (alg.lenBytes (u.total * 8)).toList) := by
  have hlt : u.fill < 64 := h.1 ▸ h.2.1
  obtain ⟨v, held', hv, hb, hfill⟩ := push_fill alg h 0x80
  rw [List.append_assoc, List.singleton_append]
  simp only [pushPadding, pushAll, hv, bitLen]
  rw [zeroFill_eq alg hb (by omega), pushAll_append, show (120 - v.fill) % 64 = (119 - u.fill) % 64 by omega]
  cases pushAll alg v (List.replicate ((119 - u.fill) % 64) 0) <;> rfl

/-- A finalized unit is well formed whatever the free values are (R20, R31). -/
theorem finalizedUnit_ok (nw n : Nat) : HashOk (finalizedUnit nw n) := by
  refine ⟨⟨?_, fun c hc => ?_⟩, Nat.le_of_lt_succ (Config.freeFill n).isLt, fun h => by cases h⟩
  · exact List.pairwise_map.2 List.pairwise_lt_range
  · obtain ⟨a, ha, rfl⟩ := List.mem_map.1 hc
    exact List.mem_range.1 ha

end Sys2Proof.Machine
end

