-- ==== Sys2Proof/Laws/Modes.lean ====
section
/-! SUPPORT. What the chunker and the frame assembly of the MODES unit give, said once: which bytes each block is, and
that cutting and framing undo each other. -/

namespace Sys2Proof.Machine

open Sys2Proof.Safety

/-- A string of the right length is a `BytesK`. -/
theorem bytesN?_of_length {k : Nat} {b : Bytes} (h : b.length = k) : ∃ v : BytesN k, bytesN? k b = some v ∧ v.toList = b := by
  subst h
  exact ⟨_, dif_pos rfl, rfl⟩

/-- What a successful check of the length gives. -/
theorem bytesN?_some {k : Nat} {b : Bytes} {v : BytesN k} (h : bytesN? k b = some v) : v.toList = b := by
  unfold bytesN? at h
  split at h
  · cases h; rfl
  · cases h

@[simp] theorem bytesN?_toList {k : Nat} (v : BytesN k) : bytesN? k v.toList = some v := by
  obtain ⟨w, hw, hv⟩ := bytesN?_of_length v.length_toList
  rw [hw, Vector.toList_inj.1 hv]

theorem bytesN?_none {k : Nat} {b : Bytes} (h : b.length ≠ k) : bytesN? k b = none := dif_neg h

@[simp] theorem xorN_getElem {k : Nat} (a b : BytesN k) (i : Nat) (h : i < k) : (xorN a b)[i] = a[i] ^^^ b[i] := by
  simp [xorN]

theorem xorN_xorN {k : Nat} (a b : BytesN k) : xorN (xorN a b) b = a := by
  refine Vector.ext fun i h => ?_
  rw [xorN_getElem, xorN_getElem, BitVec.xor_assoc, BitVec.xor_self, BitVec.xor_zero]

/-- The whole blocks of a string: as many as asked for, each 16 bytes of the string (spec 41_block_modes.md R112). -/
theorem fullBlocks_spec (data : Bytes) : ∀ m : Nat, 16 * m ≤ data.length → (fullBlocks data m).length = m ∧
    ∀ i < m, ∃ b : Block, (fullBlocks data m)[i]? = some b ∧ BlockAt data i b := by
  intro m
  induction m with
  | zero => exact fun _ => ⟨rfl, fun i hi => absurd hi (Nat.not_lt_zero i)⟩
  | succ m ih =>
    intro h
    obtain ⟨hl, hb⟩ := ih (by omega)
    obtain ⟨v, hv, hvt⟩ := bytesN?_of_length (b := slice data (16 * m) (16 * m + 16)) (k := 16)
      (by simp only [slice, List.length_take, List.length_drop]; omega)
    have e : fullBlocks data (m + 1) = fullBlocks data m ++ [v] := by
      simp [fullBlocks, List.range_succ, List.filterMap_append, hv]
    rw [e]
    refine ⟨by simp [hl], fun i hi => ?_⟩
    rcases Nat.lt_or_ge i m with hlt | hge
    · obtain ⟨b, hb, hat⟩ := hb i hlt
      exact ⟨b, by rw [List.getElem?_append_left (by omega)]; exact hb, hat⟩
    · obtain rfl : i = m := by omega
      exact ⟨v, by rw [List.getElem?_append_right (by omega)]; simp [hl], hvt⟩

theorem frame_cons (b : Block) (bs : List Block) : frame (b :: bs) = b.toList ++ frame bs := rfl

theorem frame_append (as bs : List Block) : frame (as ++ bs) = frame as ++ frame bs := List.flatMap_append

theorem frame_length (bs : List Block) : (frame bs).length = 16 * bs.length := by
  induction bs with
  | nil => rfl
  | cons b bs ih => rw [frame_cons, List.length_append, ih, b.length_toList, List.length_cons]; omega

theorem slice_append_right (a b : Bytes) (i : Nat) (h : a.length = 16) :
    slice (a ++ b) (16 * (i + 1)) (16 * (i + 1) + 16) = slice b (16 * i) (16 * i + 16) := by
  have hd : (a ++ b).drop (16 * (i + 1)) = b.drop (16 * i) := by
    rw [show 16 * (i + 1) = a.length + 16 * i by omega, List.drop_length_add_append]
  rw [slice, slice, hd]
  congr 1
  omega

/-- Block `i` of a frame is the `i`-th block framed (R113). -/
theorem frame_blockAt {bs : List Block} {i : Nat} {b : Block} (h : bs[i]? = some b) : BlockAt (frame bs) i b := by
  induction bs generalizing i with
  | nil => cases h
  | cons c bs ih =>
    cases i with
    | zero => cases h; simp [BlockAt, frame_cons, slice]
    | succ i => rw [BlockAt, frame_cons, slice_append_right _ _ _ c.length_toList]; exact ih (by simpa using h)

/-- Blocks that are in order the blocks of a string frame to that string. -/
theorem frame_eq {bs : List Block} {data : Bytes} (hl : data.length = 16 * bs.length)
    (h : ∀ i b, bs[i]? = some b → BlockAt data i b) : frame bs = data := by
  induction bs generalizing data with
  | nil => exact (List.length_eq_zero_iff.1 hl).symm
  | cons c bs ih =>
    rw [List.length_cons] at hl
    have h0 : c.toList = data.take 16 := by simpa [BlockAt, slice] using h 0 c rfl
    have ht : (data.take 16).length = 16 := by rw [List.length_take]; omega
    rw [frame_cons, ih (data := data.drop 16) (by rw [List.length_drop]; omega), h0, List.take_append_drop]
    intro i b hb
    have := h (i + 1) b hb
    rwa [BlockAt, ← List.take_append_drop 16 data, slice_append_right _ _ _ ht] at this

/-- The whole blocks of a string of whole blocks frame to it. -/
theorem frame_fullBlocks {data : Bytes} {m : Nat} (h : data.length = 16 * m) : frame (fullBlocks data m) = data := by
  obtain ⟨hl, hb⟩ := fullBlocks_spec data m h.ge
  refine frame_eq (by rw [hl, h]) fun i b hi => ?_
  obtain ⟨b', hb', hat⟩ := hb i (hl ▸ (List.getElem?_eq_some_iff.1 hi).1)
  cases hb'.symm.trans hi
  exact hat

/-- Cutting a frame gives the blocks back. -/
theorem fullBlocks_frame (bs : List Block) : fullBlocks (frame bs) bs.length = bs := by
  obtain ⟨hl, hb⟩ := fullBlocks_spec (frame bs) bs.length (frame_length bs).ge
  refine List.ext_getElem? fun i => ?_
  rcases Nat.lt_or_ge i bs.length with h | h
  · obtain ⟨b, hb, hat⟩ := hb i h
    rw [hb, List.getElem?_eq_getElem h]
    refine congrArg some (Vector.toList_inj.1 ?_)
    exact Eq.trans hat (frame_blockAt (List.getElem?_eq_getElem h)).symm
  · rw [List.getElem?_eq_none (by omega), List.getElem?_eq_none h]

/-- The encrypt-side chunker cuts the padded data: `floor(L/16) + 1` blocks that frame to it (R112). -/
theorem chunks_spec (data : Bytes) :
    (chunks data).length = data.length / 16 + 1 ∧ frame (chunks data) = paddedData data := by
  have hq : 16 * (data.length / 16) ≤ data.length := by omega
  have hslice : slice data (16 * (data.length / 16)) data.length = data.drop (16 * (data.length / 16)) := by
    rw [slice, List.take_of_length_le (by rw [List.length_drop])]
  have htail : (data.drop (16 * (data.length / 16))).length = data.length % 16 := by rw [List.length_drop]; omega
  obtain ⟨v, hv, hvt⟩ := bytesN?_of_length (k := 16) (b := pad16 (data.drop (16 * (data.length / 16))))
    (by simp only [pad16, padTo, rep, List.length_append, List.length_replicate, htail]; omega)
  obtain ⟨hl, hb⟩ := fullBlocks_spec data (data.length / 16) hq
  have hfull : frame (fullBlocks data (data.length / 16)) = data.take (16 * (data.length / 16)) := by
    refine frame_eq (by rw [hl, List.length_take]; omega) fun i b hi => ?_
    have hlt : i < data.length / 16 := hl ▸ (List.getElem?_eq_some_iff.1 hi).1
    obtain ⟨b', hb', hat⟩ := hb i hlt
    cases hb'.symm.trans hi
    rw [BlockAt, hat, slice, slice, List.drop_take, List.take_take]
    congr 1
    omega
  rw [chunks, hslice, hv]
  refine ⟨by simp [hl], ?_⟩
  rw [frame_append, hfull, Option.toList_some, frame_cons, hvt]
  simp only [frame, List.flatMap_nil, List.append_nil, pad16, padTo, htail, rep, paddedData]
  rw [← List.append_assoc, List.take_append_drop]

end Sys2Proof.Machine
end

