-- ==== Sys2Proof/Laws/Operands.lean ====
section
/-! SUPPORT. What the byte-string and byte-word operations give, index by index, and how long their results are. -/

namespace Sys2Proof.Machine

theorem slice_length (b : Bytes) (lo hi : Nat) : (slice b lo hi).length = min (hi - lo) (b.length - lo) := by
  simp [slice]

@[simp] theorem rep_length (v : Byte) (n : Nat) : (rep v n).length = n := List.length_replicate

@[simp] theorem be32bytes_getElem (w : Word) (i : Nat) (h : i < 4) :
    (be32bytes w)[i] = w.extractLsb' (24 - 8 * i) 8 := by
  simp [be32bytes]

@[simp] theorem le32bytes_getElem (w : Word) (i : Nat) (h : i < 4) : (le32bytes w)[i] = w.extractLsb' (8 * i) 8 := by
  simp [le32bytes]

@[simp] theorem be64bytes_getElem (v : DWord) (i : Nat) (h : i < 8) :
    (be64bytes v)[i] = v.extractLsb' (56 - 8 * i) 8 := by
  simp [be64bytes]

@[simp] theorem le64bytes_getElem (v : DWord) (i : Nat) (h : i < 8) : (le64bytes v)[i] = v.extractLsb' (8 * i) 8 := by
  simp [le64bytes]

@[simp] theorem bytes4At_getElem {n : Nat} (b : BytesN (4 * n)) (j : Fin n) (i : Nat) (h : i < 4) :
    (bytes4At b j)[i] = b[4 * j.val + i] := by
  simp [bytes4At]

@[simp] theorem digestWords_getElem {nw : Nat} (alg : HashAlg nw) (digest : BytesN (4 * nw)) (i : Nat) (h : i < nw) :
    (digestWords alg digest)[i] = alg.bytesWord (bytes4At digest ⟨i, h⟩) := by
  simp [digestWords]

/-- A digest has `4 * NW(U)` bytes (spec 42_hash_engine.md R140). -/
theorem wordsDigest_length {nw : Nat} (alg : HashAlg nw) (h : Vector Word nw) : (wordsDigest alg h).length = 4 * nw := by
  simp [wordsDigest, Nat.mul_comm]

/-- The padding bytes, with the length the message ends its last block at (R148). -/
theorem padBytes_length {nw : Nat} (alg : HashAlg nw) (length : DWord) :
    (padBytes alg length).length = 9 + (119 - length.toNat % 64) % 64 := by
  simp only [padBytes, List.length_append, List.length_singleton, rep_length, Vector.length_toList]
  omega

end Sys2Proof.Machine
end

