-- ==== Sys2Proof/Laws/PerInstr.lean ====
section
/-! SUPPORT. Per instruction: the fields of the word that a well-formed command encodes to, and the types of the
operands beside it (spec 30_encoding.md R71 to R74). -/

namespace Sys2Proof.Laws

/-- The encoded word has zeros above its fields, the opcode's number and the command's own immediate in them, and
beside it operands of the types of the opcode's row. -/
def EncodedWord.Statement (i : Instr) : Prop :=
  WellFormed i → zeroField (encode i).1 = 0 ∧ opcField (encode i).1 = i.opcode.number ∧
    (argField (encode i).1).toNat = i.arg ∧ (encode i).2.map Operand.type = i.opcode.signature

/-- An immediate in its range fits its field. -/
theorem arg_lt {i : Instr} (h : WellFormed i) : i.arg < 32 := by
  have hl := (wellFormed_iff_legal i).1 h
  have bound : ∀ (k : ArgKind) (n : Nat), k.legal n = true → n < 32 := by
    intro k n hk
    cases k with
    | zero => exact (beq_iff_eq.1 hk) ▸ (by decide)
    | blockSize => exact Nat.lt_of_le_of_lt (of_decide_eq_true hk).2 (by decide)
    | shift => exact Nat.lt_of_le_of_lt (of_decide_eq_true hk).2 (by decide)
  exact bound _ _ hl

/-- The fields of an encoded word, for any command whose operands have its row's types. -/
theorem encodedWord_of_types {i : Instr} (h : i.operands.map Operand.type = i.opcode.signature) :
    EncodedWord.Statement i := fun hi =>
  have hf := commandWord_fields i.opcode (arg_lt hi)
  ⟨hf.1, hf.2.1, hf.2.2, h⟩

theorem EncodedWord.pkcs7Pad : ∀ a b, EncodedWord.Statement (.pkcs7Pad a b) := fun _ _ => encodedWord_of_types rfl
theorem EncodedWord.pkcs7Strip : ∀ a b, EncodedWord.Statement (.pkcs7Strip a b) := fun _ _ => encodedWord_of_types rfl
theorem EncodedWord.pkcs7TryStrip : ∀ a b, EncodedWord.Statement (.pkcs7TryStrip a b) := fun _ _ => encodedWord_of_types rfl
theorem EncodedWord.ecbEnc : ∀ a b, EncodedWord.Statement (.ecbEnc a b) := fun _ _ => encodedWord_of_types rfl
theorem EncodedWord.ecbDec : ∀ a b, EncodedWord.Statement (.ecbDec a b) := fun _ _ => encodedWord_of_types rfl
theorem EncodedWord.cbcEnc : ∀ a b c, EncodedWord.Statement (.cbcEnc a b c) := fun _ _ _ => encodedWord_of_types rfl
theorem EncodedWord.cbcDec : ∀ a b c, EncodedWord.Statement (.cbcDec a b c) := fun _ _ _ => encodedWord_of_types rfl
theorem EncodedWord.ctrXform : ∀ a b c, EncodedWord.Statement (.ctrXform a b c) := fun _ _ _ => encodedWord_of_types rfl
theorem EncodedWord.sha1Init : EncodedWord.Statement .sha1Init := encodedWord_of_types rfl
theorem EncodedWord.sha1InitState : ∀ a b, EncodedWord.Statement (.sha1InitState a b) := fun _ _ => encodedWord_of_types rfl
theorem EncodedWord.sha1Update : ∀ a, EncodedWord.Statement (.sha1Update a) := fun _ => encodedWord_of_types rfl
theorem EncodedWord.sha1Finish : EncodedWord.Statement .sha1Finish := encodedWord_of_types rfl
theorem EncodedWord.sha1Padding : ∀ a, EncodedWord.Statement (.sha1Padding a) := fun _ => encodedWord_of_types rfl
theorem EncodedWord.md4Init : EncodedWord.Statement .md4Init := encodedWord_of_types rfl
theorem EncodedWord.md4InitState : ∀ a b, EncodedWord.Statement (.md4InitState a b) := fun _ _ => encodedWord_of_types rfl
theorem EncodedWord.md4Update : ∀ a, EncodedWord.Statement (.md4Update a) := fun _ => encodedWord_of_types rfl
theorem EncodedWord.md4Finish : EncodedWord.Statement .md4Finish := encodedWord_of_types rfl
theorem EncodedWord.md4Padding : ∀ a, EncodedWord.Statement (.md4Padding a) := fun _ => encodedWord_of_types rfl
theorem EncodedWord.mtNew : ∀ a, EncodedWord.Statement (.mtNew a) := fun _ => encodedWord_of_types rfl
theorem EncodedWord.mtFrom : ∀ a, EncodedWord.Statement (.mtFrom a) := fun _ => encodedWord_of_types rfl
theorem EncodedWord.mtNext : EncodedWord.Statement .mtNext := encodedWord_of_types rfl
theorem EncodedWord.mtInvRshift : ∀ a b, EncodedWord.Statement (.mtInvRshift a b) := fun _ _ => encodedWord_of_types rfl
theorem EncodedWord.mtInvLshift : ∀ a b c, EncodedWord.Statement (.mtInvLshift a b c) := fun _ _ _ => encodedWord_of_types rfl

end Sys2Proof.Laws
end

