-- ==== Sys2Proof/Laws/Prng.lean ====
section
/-! SUPPORT. What the generator's operations give, said once: the words after a twist, the body of `MT_NEXT`, and the
bits the two inversions recover. -/

namespace Sys2Proof.Machine

open Sys2Proof.Safety

/-- One index of the twist (spec 45_prng_mt19937.md R204). -/
theorem twistAt_eq (s : MtWords) (i : Fin 624) : twistAt s i = s.set i.val
    (twistWord s[i] (s[(i.val + 1) % 624]'(Nat.mod_lt _ (by decide))) (s[(i.val + 397) % 624]'(Nat.mod_lt _ (by decide))))
    i.isLt := by
  have hbit : ∀ y : Word, (y &&& 1 = 1) ↔ y.getLsbD 0 = true := by
    intro y
    rw [← BitVec.toNat_inj]
    simp [BitVec.toNat_and, Nat.and_one_is_mod, BitVec.getLsbD, Nat.testBit_zero]
  unfold twistAt twistWord
  dsimp only
  congr 1
  simp only [hbit]
  split <;> simp

/-- After the first `k` indices of a twist: the words from `k` up are old, and each word below `k` is made of its old
self, its neighbour and the word 397 places ahead, which from index 227 on is a new one (R204). -/
theorem twist_take (s : MtWords) : ∀ k ≤ 624, ∀ (w : MtWords), ((List.finRange 624).take k).foldl twistAt s = w →
    ∀ (i : Nat) (h : i < 624), (k ≤ i → w[i] = s[i]) ∧
      (i < k → w[i] = twistWord s[i] (if h' : i + 1 < 624 then s[i + 1] else w[0])
        (if h' : i + 397 < 624 then s[i + 397] else w[i - 227]'(by omega))) := by
  intro k
  induction k with
  | zero =>
    intro _ w hw i h
    rw [List.take_zero, List.foldl_nil] at hw
    subst hw
    exact ⟨fun _ => rfl, fun hi => absurd hi (Nat.not_lt_zero i)⟩
  | succ k ih =>
    intro hk w' hw' i h
    obtain ⟨w, hw⟩ : ∃ w, ((List.finRange 624).take k).foldl twistAt s = w := ⟨_, rfl⟩
    have old := ih (by omega) w hw
    have hstep : w' = w.set k (twistWord w[k] (w[(k + 1) % 624]'(Nat.mod_lt _ (by decide)))
        (w[(k + 397) % 624]'(Nat.mod_lt _ (by decide)))) hk := by
      rw [← hw', List.take_succ_eq_append_getElem (by simpa using hk), List.foldl_append, hw]
      simpa using twistAt_eq w ⟨k, hk⟩
    have hother : ∀ (j : Nat) (hj : j < 624), j ≠ k → w'[j] = w[j] := by
      intro j hj hne
      subst hstep
      exact Vector.getElem_set_ne _ _ (Ne.symm hne)
    refine ⟨fun hki => (hother i h (by omega)).trans ((old i h).1 (by omega)), fun hik => ?_⟩
    rcases Nat.lt_or_ge i k with hlt | hge
    · refine ((hother i h (by omega)).trans ((old i h).2 hlt)).trans (congr (congrArg (twistWord s[i]) ?_) ?_)
      · rw [hother 0 (by omega) (by omega)]
      · split
        · rfl
        · exact (hother (i - 227) (by omega) (by omega)).symm
    · obtain rfl : i = k := by omega
      have hnew : w'[i] = twistWord w[i] (w[(i + 1) % 624]'(Nat.mod_lt _ (by decide)))
          (w[(i + 397) % 624]'(Nat.mod_lt _ (by decide))) := by
        subst hstep
        exact Vector.getElem_set_self _
      refine hnew.trans (congr (congrArg₂ twistWord ((old i h).1 (Nat.le_refl i)) ?_) ?_)
      · split
        · next h' => simp only [Nat.mod_eq_of_lt h']; exact (old (i + 1) h').1 (by omega)
        · next h' =>
          have : (i + 1) % 624 = 0 := by omega
          simp only [this]
          exact (hother 0 (by omega) (by omega)).symm
      · split
        · next h' => simp only [Nat.mod_eq_of_lt h']; exact (old (i + 397) h').1 (by omega)
        · next h' =>
          have : (i + 397) % 624 = i - 227 := by omega
          simp only [this]
          exact (hother (i - 227) (by omega) (by omega)).symm

/-- What a twist leaves at each index (R204). -/
theorem twist_getElem (s : MtWords) (i : Nat) (h : i < 624) : (twist s)[i] =
    twistWord s[i] (if h' : i + 1 < 624 then s[i + 1] else (twist s)[0])
      (if h' : i + 397 < 624 then s[i + 397] else (twist s)[i - 227]'(by omega)) := by
  refine (twist_take s 624 (Nat.le_refl _) (twist s) ?_ i h).2 h
  rw [List.take_of_length_le (by simp), twist]

/-- The body of `MT_NEXT` below cursor 624 (R207). -/
theorem mtAdvance_of_lt {p : Prng} (h : p.cur < 624) :
    mtAdvance p = some ({ p with cur := p.cur + 1 }, temper p.s[p.cur]) := by
  have hne : p.cur ≠ 624 := by omega
  simp only [mtAdvance, hne, if_false, dif_pos h]

/-- The body of `MT_NEXT` at cursor 624: a twist first (R207). -/
theorem mtAdvance_of_eq {p : Prng} (h : p.cur = 624) :
    mtAdvance p = some ({ p with s := twist p.s, cur := 1 }, temper (twist p.s)[0]) := by
  simp only [mtAdvance, h, if_true]
  rw [dif_pos (by decide)]

/-- All that the body of `MT_NEXT` can do (R207): the phase stays, and the cursor ends in 1..624. -/
theorem mtAdvance_cases {p q : Prng} {w : Word} (h : mtAdvance p = some (q, w)) :
    q.phase = p.phase ∧ 1 ≤ q.cur ∧ q.cur ≤ 624 ∧
      ((p.cur < 624 ∧ q.s = p.s ∧ q.cur = p.cur + 1) ∨ (p.cur = 624 ∧ q.s = twist p.s ∧ q.cur = 1)) := by
  rcases Nat.lt_trichotomy p.cur 624 with hlt | heq | hgt
  · rw [mtAdvance_of_lt hlt] at h
    obtain ⟨rfl, -⟩ := Prod.mk.inj (Option.some.inj h)
    exact ⟨rfl, Nat.le_add_left _ _, hlt, .inl ⟨hlt, rfl, rfl⟩⟩
  · rw [mtAdvance_of_eq heq] at h
    obtain ⟨rfl, -⟩ := Prod.mk.inj (Option.some.inj h)
    refine ⟨rfl, ?_, ?_, .inr ⟨heq, ?_, ?_⟩⟩ <;> simp
  · have hne : p.cur ≠ 624 := by omega
    have hnl : ¬ p.cur < 624 := by omega
    simp only [mtAdvance, hne, if_false, dif_neg hnl, reduceCtorEq] at h

end Sys2Proof.Machine
end

