-- ==== Sys2Proof/Laws/Run.lean ====
section
/-! SUPPORT. How the rules of a list of commands run one after the other. -/

namespace Sys2Proof.Safety

open Sys2Proof.Machine

theorem execAll_cons {i : Instr} {is : List Instr} {s t : State} (h : exec i s = .next t) :
    execAll (i :: is) s = execAll is t := by
  rw [execAll, h]

/-- A list of commands runs as its two parts, one after the other. -/
theorem execAll_append {is js : List Instr} {s t : State} (h : execAll is s = .next t) :
    execAll (is ++ js) s = execAll js t := by
  induction is generalizing s with
  | nil => cases h; rfl
  | cons i is ih =>
    rw [execAll] at h
    split at h
    · next u hu => rw [List.cons_append, execAll_cons hu]; exact ih h
    · cases h
    · cases h

end Sys2Proof.Safety
end

