-- ==== Sys2Proof/Tests/Slice0.lean ====
section
/-! SUPPORT. The model's own tests: the well-formedness checks, every row's decoding from a word written out by the
encoding of spec/30_encoding.md, one or two vectors of spec/95_test_vectors.md for each command (V1 to V57), and for
each obligation with hypotheses a witness that meets them. -/

namespace Sys2Proof.Tests

open Sys2Proof.Machine Sys2Proof.Safety

/-! ### Helpers -/

/-- The last response of an outcome. -/
def answer (o : Host.Outcome State Fault Refusal) : Option Response :=
  match o with
  | .next t => t.responses.getLast?
  | .fault _ => none
  | .refused _ => none

/-- `OK` with bytes. -/
def okBytes (b : Bytes) : Option Response := some ⟨.ok, .bytes b⟩

/-- `OK` with a word. -/
def okWord (w : Word) : Option Response := some ⟨.ok, .word w⟩

/-- The state after a list of commands run from `s`, each to its end. -/
def after : List Instr → State → State
  | [], s => s
  | i :: is, s =>
    match exec i s with
    | .next t => after is t
    | .fault _ => s
    | .refused _ => s

/-- The key of the vectors, `"YELLOW SUBMARINE"`. -/
def key : Block := #v[0x59, 0x45, 0x4c, 0x4c, 0x4f, 0x57, 0x20, 0x53, 0x55, 0x42, 0x4d, 0x41, 0x52, 0x49, 0x4e, 0x45]

/-- `ivR` of the vectors. -/
def ivR : Block := Vector.ofFn fun i => BitVec.ofNat 8 i.val

/-- `nonceR` of the vectors. -/
def nonceR : BytesN 8 := Vector.ofFn fun i => BitVec.ofNat 8 i.val

/-- The toy cipher `ROTK` of the vectors, on `key`: exclusive-or, then a rotation of the bytes by one. -/
def rotEnc (b : Block) : Block := Vector.ofFn fun i => (xorN b key)[(i.val + 1) % 16]'(Nat.mod_lt _ (by decide))

/-- The inverse of `rotEnc`. -/
def rotDec (b : Block) : Block :=
  xorN (Vector.ofFn fun i => b[(i.val + 15) % 16]'(Nat.mod_lt _ (by decide))) key

/-- A hash unit in the middle of a message: `k` bytes `0x61` held. -/
def holding {nw : Nat} (alg : HashAlg nw) (k : Nat) : HashUnit nw :=
  { h := alg.iv, buf := (List.range k).map fun a => (a, 0x61), fill := k, total := BitVec.ofNat 64 k, phase := .updating }

/-- A seeded generator with a given cursor. -/
def seeded (cur : Nat) : Prng := { s := Vector.replicate 624 0x3F892725, cur := cur, phase := .seeded }

/-- A state with both hash contexts live, the generator seeded, and the given events presented. -/
def busy (fill cur : Nat) (pending : List HostEvent) : State :=
  { State.reset with sha1 := holding sha1Alg fill, md4 := holding md4Alg fill, prng := seeded cur, pending := pending }

/-! ### Well-formedness: an ill-formed term for each check -/

theorem test_wellFormed_pad_7 : ¬ WellFormed (.pkcs7Pad 7 []) := by decide
theorem test_wellFormed_pad_17 : ¬ WellFormed (.pkcs7Pad 17 []) := by decide
theorem test_wellFormed_strip_7 : ¬ WellFormed (.pkcs7Strip 7 []) := by decide
theorem test_wellFormed_strip_17 : ¬ WellFormed (.pkcs7Strip 17 []) := by decide
theorem test_wellFormed_tryStrip_7 : ¬ WellFormed (.pkcs7TryStrip 7 []) := by decide
theorem test_wellFormed_tryStrip_17 : ¬ WellFormed (.pkcs7TryStrip 17 []) := by decide
theorem test_wellFormed_rshift_0 : ¬ WellFormed (.mtInvRshift 0 1) := by decide
theorem test_wellFormed_rshift_32 : ¬ WellFormed (.mtInvRshift 32 1) := by decide
theorem test_wellFormed_lshift_0 : ¬ WellFormed (.mtInvLshift 0 1 1) := by decide
theorem test_wellFormed_lshift_32 : ¬ WellFormed (.mtInvLshift 32 1 1) := by decide

/-! ### Decoding: the words of V55, with operands of the types of R72 -/

theorem test_decode_pkcs7Pad : decode 0x00001010 [.bytes [0x41]] = .ok (.pkcs7Pad 16 [0x41]) := by decide
theorem test_decode_pkcs7Strip : decode 0x00000811 [.bytes [0x41]] = .ok (.pkcs7Strip 8 [0x41]) := by decide
theorem test_decode_pkcs7TryStrip : decode 0x00000c12 [.bytes [0x41]] = .ok (.pkcs7TryStrip 12 [0x41]) := by decide
theorem test_decode_ecbEnc : decode 0x00000020 [.bytes [1], .bytes [2]] = .ok (.ecbEnc [1] [2]) := by decide
theorem test_decode_ecbDec : decode 0x00000021 [.bytes [1], .bytes [2]] = .ok (.ecbDec [1] [2]) := by decide
theorem test_decode_cbcEnc : decode 0x00000022 [.bytes [1], .bytes16 ivR, .bytes [2]] = .ok (.cbcEnc [1] ivR [2]) := by
  decide
theorem test_decode_cbcDec : decode 0x00000023 [.bytes [1], .bytes16 ivR, .bytes [2]] = .ok (.cbcDec [1] ivR [2]) := by
  decide
theorem test_decode_ctrXform :
    decode 0x00000024 [.bytes [1], .bytes8 nonceR, .bytes [2]] = .ok (.ctrXform [1] nonceR [2]) := by decide
theorem test_decode_sha1Init : decode 0x00000030 [] = .ok .sha1Init := by decide
theorem test_decode_sha1InitState :
    decode 0x00000031 [.bytes20 (Vector.replicate 20 7), .u64 64] = .ok (.sha1InitState (Vector.replicate 20 7) 64) := by
  decide
theorem test_decode_sha1Update : decode 0x00000032 [.bytes [2]] = .ok (.sha1Update [2]) := by decide
theorem test_decode_sha1Finish : decode 0x00000033 [] = .ok .sha1Finish := by decide
theorem test_decode_sha1Padding : decode 0x00000034 [.u64 22] = .ok (.sha1Padding 22) := by decide
theorem test_decode_md4Init : decode 0x00000040 [] = .ok .md4Init := by decide
theorem test_decode_md4InitState : decode 0x00000041 [.bytes16 ivR, .u64 64] = .ok (.md4InitState ivR 64) := by decide
theorem test_decode_md4Update : decode 0x00000042 [.bytes [2]] = .ok (.md4Update [2]) := by decide
theorem test_decode_md4Finish : decode 0x00000043 [] = .ok .md4Finish := by decide
theorem test_decode_md4Padding : decode 0x00000044 [.u64 22] = .ok (.md4Padding 22) := by decide
theorem test_decode_mtNew : decode 0x00000050 [.u32 5489] = .ok (.mtNew 5489) := by decide
theorem test_decode_mtFrom (w : MtWords) : decode 0x00000051 [.words624 w] = .ok (.mtFrom w) := rfl
theorem test_decode_mtNext : decode 0x00000052 [] = .ok .mtNext := by decide
theorem test_decode_mtInvRshift : decode 0x00001253 [.u32 9] = .ok (.mtInvRshift 18 9) := by decide
theorem test_decode_mtInvLshift : decode 0x00000754 [.u32 9, .u32 3] = .ok (.mtInvLshift 7 9 3) := by decide

/-- The illegal words of V56: none selects a row, and one is shown through the decoder. -/
theorem test_decode_illegal_words : ([0x00000000, 0x00000013, 0x00000025, 0x00000035, 0x00000055, 0x000000ff,
    0x00000120, 0x00001030, 0x00002010, 0x80001010, 0x00000710, 0x00001110, 0x00000053, 0x00000054] :
      List (BitVec 32)).map selectRow = List.replicate 14 none ∧ decode 0x00002010 [.bytes []] = .error .illegal := by
  decide

/-- The legal neighbours of V56, and an operand of a wrong type. -/
theorem test_decode_legal_neighbours : decode 0x00001f53 [.u32 9] = .ok (.mtInvRshift 31 9) ∧
    decode 0x00000153 [.u32 9] = .ok (.mtInvRshift 1 9) ∧ decode 0x00000153 [.u64 9] = .error .notPresentable := by decide

/-! ### PKCS7 (V2, V14 to V17) -/

theorem test_pkcs7Pad : answer (exec (.pkcs7Pad 12 [0x68, 0x65, 0x6c, 0x6c, 0x6f]) State.reset) =
    okBytes [0x68, 0x65, 0x6c, 0x6c, 0x6f, 7, 7, 7, 7, 7, 7, 7] := by decide
theorem test_pkcs7Pad_oversize :
    answer (exec (.pkcs7Pad 8 [1, 2, 3, 4, 5, 6, 7, 8, 9]) State.reset) = some ⟨.oversizedBlock, .none⟩ ∧
    (after [.pkcs7Pad 8 [1, 2, 3, 4, 5, 6, 7, 8, 9]] State.reset).fcode = 2 := by decide
theorem test_pkcs7Strip_suffix : answer (exec (.pkcs7Strip 16 [0x42, 4, 4, 4, 4, 4]) State.reset) =
    okBytes [0x42, 4] := by decide
theorem test_pkcs7Strip_invalid : answer (exec (.pkcs7Strip 8 [9, 9, 9, 9, 9, 9, 9, 9, 9]) State.reset) =
    okBytes [9, 9, 9, 9, 9, 9, 9, 9, 9] := by decide
theorem test_pkcs7TryStrip : answer (exec (.pkcs7TryStrip 16 [3, 3, 3]) State.reset) = okBytes [] := by decide
theorem test_pkcs7TryStrip_invalid :
    answer (exec (.pkcs7TryStrip 16 [3, 3]) State.reset) = some ⟨.invalidPadding, .none⟩ ∧
    (after [.pkcs7TryStrip 16 [3, 3]] State.reset).fault = false := by decide

/-! ### MODES, with the toy cipher `ROTK` (V29, V30) -/

theorem test_ecbEnc : ecbEncrypt rotEnc [0x41] =
    [0x4a, 0x43, 0x43, 0x40, 0x58, 0x2f, 0x5c, 0x5a, 0x4d, 0x42, 0x4e, 0x5d, 0x46, 0x41, 0x4a, 0x18] := by decide
theorem test_ecbEnc_short_key :
    answer (exec (.ecbEnc [1] [0x41]) State.reset) = some ⟨.invalidKeyLength, .none⟩ := by decide
theorem test_ecbDec : ecbDecrypt rotDec
    [0x4a, 0x43, 0x43, 0x40, 0x58, 0x2f, 0x5c, 0x5a, 0x4d, 0x42, 0x4e, 0x5d, 0x46, 0x41, 0x4a, 0x18] = [0x41] := by
  decide
theorem test_ecbDec_misaligned :
    answer (exec (.ecbDec key.toList [0x41]) State.reset) = some ⟨.misalignedCiphertext, .none⟩ := by decide
theorem test_cbcEnc : (cbcEncrypt rotEnc ivR [0x30, 0x31, 0x32, 0x33, 0x34, 0x35, 0x36, 0x37, 0x38, 0x39, 0x61, 0x62,
    0x63, 0x64, 0x65, 0x66, 0x58, 0x59, 0x5a]).drop 14 =
    [0x2c, 0x69, 0x60, 0x6a, 0x3e, 0x25, 0x4a, 0x4e, 0x3b, 0x2a, 0x69, 0x68, 0x71, 0x7f, 0x61, 0x6f, 0x21, 0x74] := by
  decide
theorem test_cbcDec : cbcDecrypt rotDec ivR
    [0x4b, 0x41, 0x40, 0x44, 0x5d, 0x29, 0x5b, 0x52, 0x44, 0x48, 0x45, 0x51, 0x4b, 0x4f, 0x45, 0x18] = [0x41] := by
  decide
theorem test_cbcDec_key_first :
    answer (exec (.cbcDec [1] ivR [0x41]) State.reset) = some ⟨.invalidKeyLength, .none⟩ := by decide
/-- R247: with a pair that breaks R9's law a round trip fails, and nothing is detected. -/
theorem test_ecb_without_law : ecbDecrypt rotEnc (ecbEncrypt rotEnc [0x41]) ≠ [0x41] := by decide
theorem test_ctrXform : (ctrTransform rotEnc nonceR [0x30, 0x31, 0x32, 0x33, 0x34, 0x35, 0x36, 0x37, 0x38, 0x39, 0x61,
    0x62, 0x63, 0x64, 0x65, 0x66, 0x58, 0x59, 0x5a]).drop 14 = [0x20, 0x3f, 0x1c, 0x17, 0x15] := by decide +kernel
theorem test_ctrXform_counter : (ctrBlock nonceR 0x0102030405060708).toList.drop 8 = [8, 7, 6, 5, 4, 3, 2, 1] := by
  decide

/-! ### Hash units (V5, V7, V35, V38, V42 to V44) -/

theorem test_sha1Init : (after [.sha1Init] (busy 5 1 [])).sha1 = { holding sha1Alg 5 with fill := 0, total := 0, phase := .init } := by
  decide
theorem test_sha1InitState : (after [.sha1InitState #v[0x67, 0x45, 0x23, 0x01, 0xef, 0xcd, 0xab, 0x89, 0x98, 0xba, 0xdc,
    0xfe, 0x10, 0x32, 0x54, 0x76, 0xc3, 0xd2, 0xe1, 0xf0] 3] State.reset).sha1 =
    { h := sha1Iv, buf := [], fill := 0, total := 3, phase := .init } := by decide
theorem test_sha1Update : (after [.sha1Update [0x78, 0x79]] (busy 62 1 [])).sha1.fill = 0 ∧
    (after [.sha1Update [0x78, 0x79]] (busy 61 1 [])).sha1.buf.read 62 = some 0x79 := by decide
theorem test_sha1Update_idle : answer (exec (.sha1Update []) State.reset) = some ⟨.badPhase, .none⟩ := by decide
theorem test_sha1Finish : answer (exec .sha1Finish (after [.sha1Init, .sha1Update [0x61, 0x62, 0x63]] State.reset)) =
    okBytes [0xa9, 0x99, 0x3e, 0x36, 0x47, 0x06, 0x81, 0x6a, 0xba, 0x3e, 0x25, 0x71, 0x78, 0x50, 0xc2, 0x6c, 0x9c, 0xd0,
      0xd8, 0x9d] := by decide +kernel
theorem test_sha1Padding : answer (exec (.sha1Padding 55) State.reset) = okBytes [0x80, 0, 0, 0, 0, 0, 0, 1, 0xb8] := by
  decide
theorem test_md4Init : (after [.md4Init] (busy 5 1 [])).md4 = { holding md4Alg 5 with fill := 0, total := 0, phase := .init } := by
  decide
theorem test_md4InitState : (after [.md4InitState #v[0x01, 0x23, 0x45, 0x67, 0x89, 0xab, 0xcd, 0xef, 0xfe, 0xdc, 0xba,
    0x98, 0x76, 0x54, 0x32, 0x10] 3] State.reset).md4 =
    { h := md4Iv, buf := [], fill := 0, total := 3, phase := .init } := by decide
theorem test_md4Update : (after [.md4Update [0x78, 0x79]] (busy 62 1 [])).md4.fill = 0 ∧
    (after [.md4Update [0x78, 0x79]] (busy 61 1 [])).md4.total = 63 := by decide
theorem test_md4Finish : answer (exec .md4Finish (after [.md4Init, .md4Update [0x61, 0x62, 0x63]] State.reset)) =
    okBytes [0xa4, 0x48, 0x01, 0x7a, 0xaf, 0x21, 0xd8, 0x52, 0x5f, 0xc1, 0x0a, 0xe8, 0x7a, 0xa6, 0x72, 0x9d] := by
  decide +kernel
theorem test_md4Finish_twice : answer (exec .md4Finish (after [.md4Finish] (busy 3 1 []))) = some ⟨.badPhase, .none⟩ := by
  decide +kernel
theorem test_md4Padding : answer (exec (.md4Padding 119) State.reset) = okBytes [0x80, 0xb8, 3, 0, 0, 0, 0, 0, 0] := by
  decide

/-! ### PRNG (V8, V46, V50, V51, V54) -/

theorem test_mtNew : answer (exec .mtNext (after [.mtNew 1131464071] State.reset)) = okWord 3521569528 := by
  decide +kernel
theorem test_mtFrom : answer (exec .mtNext (after [.mtFrom (Vector.ofFn fun i => BitVec.ofNat 32 i.val)] State.reset)) =
    okWord 3708921088 := by decide +kernel
theorem test_mtNext : answer (exec .mtNext (busy 0 623 [])) = okWord 0xD1E6E2F8 := by decide +kernel
theorem test_mtNext_idle : answer (exec .mtNext State.reset) = some ⟨.badPhase, .none⟩ := by decide
theorem test_mtInvRshift : answer (exec (.mtInvRshift 18 0xDEADBEEF) State.reset) = okWord 0xDEAD8944 := by
  decide
theorem test_mtInvRshift_31 : answer (exec (.mtInvRshift 31 0x80000000) State.reset) = okWord 0x80000001 := by
  decide
theorem test_mtInvLshift : answer (exec (.mtInvLshift 7 0xDEADBEEF 0x9D2C5680) State.reset) = okWord 0xCAA9A86F := by
  decide
theorem test_mtInvLshift_31 : answer (exec (.mtInvLshift 31 0xDEADBEEF 0xFFFFFFFF) State.reset) = okWord 0x5EADBEEF := by
  decide

/-! ### The latch and reset (V57) -/

theorem test_latched : answer (step { State.reset with fault := true, fcode := 2, pending := [.command 0 []] }) =
    some ⟨.faulted, .none⟩ := by decide
theorem test_illegal : answer (step { State.reset with pending := [.command 0x133 []] }) =
    some ⟨.illegalCommand, .none⟩ := by decide
theorem test_fetchWord : (step (State.reset.withFetchWord 32 0x30)) = exec .sha1Init (State.reset.withFetchWord 32 0x30) :=
  rfl

/-! ### Witnesses: states and operands that meet the hypotheses of the obligations -/

theorem witness_StepRunsTheDecodedCommand :
    (busy 1 1 [.command 0x1253 [.u32 9]]).pending = .command 0x1253 [.u32 9] :: [] ∧
    (busy 1 1 [.command 0x1253 [.u32 9]]).fault = false ∧ decode 0x1253 [.u32 9] = .ok (.mtInvRshift 18 9) ∧
    (busy 1 1 [.command 0x53 []]).pending = .command 0x53 [] :: [] ∧ selectRow 0x53 = none ∧
    ({ busy 1 1 [.command 0x33 []] with fault := true } : State).fault = true := by decide

theorem witness_LatchedCommandAnswersFaulted :
    ({ busy 1 1 [.command 0x33 []] with fault := true } : State).fault = true ∧
    ({ busy 1 1 [.command 0x33 []] with fault := true } : State).pending = [.command 0x33 []] := by decide

/-- A legal word at each end of a row's range, and an illegal word just outside. -/
theorem witness_IllegalWordsTrap :
    (∃ row ∈ tableRows, row.argMin = 8 ∧ (0x00000810 : BitVec 32).toNat = row.pattern.toNat + 256 * 8) ∧
    (∃ row ∈ tableRows, row.argMax = 31 ∧ (0x00001f54 : BitVec 32).toNat = row.pattern.toNat + 256 * 31) ∧
    selectRow 0x00000710 = none ∧ (busy 1 1 [.command 0x710 []]).fault = false := by decide

theorem witness_RowsSelectByMaskAndMatch : ∃ row ∈ tableRows, (0x1010 : BitVec 32) &&& row.mask = row.pattern ∧
    selectRow 0x1010 = some row.opcode := by decide

theorem witness_DecodeOfEncode : WellFormed (.pkcs7Pad 8 []) ∧ WellFormed (.pkcs7Strip 16 []) ∧
    WellFormed (.mtInvRshift 1 0) ∧ WellFormed (.mtInvLshift 31 0 0) := by decide

theorem witness_EncodeOfDecode : decode 0x00001f54 [.u32 1, .u32 2] = .ok (.mtInvLshift 31 1 2) := by decide

theorem witness_LegalWordDecodesWithItsOperandTypes : selectRow 0x31 = some .sha1InitState ∧
    ([.bytes20 (Vector.replicate 20 0), .u64 0] : List Operand).map Operand.type = Opcode.sha1InitState.signature := by
  decide

theorem witness_PadLenAcceptsExactlyValidPadding : BlockSizeOk 8 ∧ BlockSizeOk 16 ∧ PaddedWith 8 [1, 2, 2] [1] 2 := by
  decide

theorem witness_PadResult : BlockSizeOk 8 ∧ (rep 0 8).length ≤ 8 ∧ BlockSizeOk 16 ∧ 16 < (rep 0 17).length := by decide

theorem witness_StripResult : BlockSizeOk 8 ∧ PaddedWith 8 (rep 8 8) [] 8 := by decide

theorem witness_TryStripResult : BlockSizeOk 16 ∧ PaddedWith 16 [5, 1] [5] 1 ∧ ∀ a v, ¬ PaddedWith 16 [] a v := by
  refine ⟨by decide, by decide, fun a v h => ?_⟩
  have := congrArg List.length h.2.2
  rw [List.length_append, List.length_replicate, List.length_nil] at this
  omega

theorem witness_PadThenStrip : BlockSizeOk 16 ∧ (rep 7 15).length < 16 := by decide

/-- A key one byte short, one byte long, and right. -/
theorem witness_EcbEncResult : (rep 0 15).length ≠ 16 ∧ (rep 0 17).length ≠ 16 ∧ key.toList = key.toList := by decide

/-- The lengths of a ciphertext around a block. -/
theorem witness_EcbDecResult : (rep 0 15).length ≠ 16 ∧ (rep 0 15).length % 16 ≠ 0 ∧ (rep 0 17).length % 16 ≠ 0 ∧
    (rep 0 16).length % 16 = 0 ∧ ([] : Bytes).length % 16 = 0 := by decide

theorem witness_CbcEncResult : (rep 0 15).length ≠ 16 ∧ (rep 0 17).length ≠ 16 ∧ key.toList = key.toList := by decide

theorem witness_CbcDecResult : (rep 0 17).length ≠ 16 ∧ (rep 0 31).length % 16 ≠ 0 ∧ (rep 0 32).length % 16 = 0 := by
  decide

/-- A cipher that keeps R9's law, and a pair that does not: the toy encryption taken in both directions. -/
theorem witness_EcbAndCbcRoundTrip : CiphLaw rotEnc rotDec ∧ ¬ CiphLaw rotEnc rotEnc := by
  refine ⟨fun b => Vector.ext fun i hi => ?_, fun h => absurd (h key) (by decide)⟩
  have e : (i + 15 + 1) % 16 = i := by omega
  simp [rotDec, rotEnc, xorN, e, BitVec.xor_assoc]

/-- The last byte of a block and the first of the next one, with their counter blocks. -/
theorem witness_CtrResult : (rep 0 15).length ≠ 16 ∧ 16 < (rep 0 17).length ∧ ∀ t : Fin 8,
    (ctrBlock nonceR 1)[t.val] = nonceR[t] ∧ (ctrBlock nonceR 1)[8 + t.val] = BitVec.ofNat 8 (16 / 16 / 256 ^ t.val) := by
  decide

theorem witness_WrongKeyLengthTraps : (rep 0 15).length ≠ 16 ∧ (rep 0 17).length ≠ 16 ∧ ([] : Bytes).length ≠ 16 := by
  decide

theorem witness_MisalignedCiphertextTraps : (rep 0 15).length % 16 ≠ 0 ∧ (rep 0 17).length % 16 ≠ 0 := by decide

/-- Both hash contexts live, at each end of the range of `FILL`: for the update, finish and split statements. -/
theorem witness_Sha1UpdateAbsorbsData : State.reset.sha1.phase = .idle ∧ (finalizedUnit 5 0).phase = .finalized ∧
    HashOk (busy 0 1 []).sha1 ∧ HashOk (busy 63 1 []).sha1 ∧ (busy 63 1 []).sha1.phase = .updating ∧
    (after [.sha1Init] State.reset).sha1.phase = .init :=
  ⟨rfl, rfl, by decide, by decide, rfl, rfl⟩

theorem witness_Md4UpdateAbsorbsData : State.reset.md4.phase = .idle ∧ (finalizedUnit 4 0).phase = .finalized ∧
    HashOk (busy 0 1 []).md4 ∧ HashOk (busy 63 1 []).md4 ∧ (busy 63 1 []).md4.phase = .updating ∧
    (after [.md4Init] State.reset).md4.phase = .init :=
  ⟨rfl, rfl, by decide, by decide, rfl, rfl⟩

theorem witness_Sha1FinishGivesTheDigest : State.reset.sha1.phase = .idle ∧ (finalizedUnit 5 0).phase = .finalized ∧
    HashOk (busy 55 1 []).sha1 ∧ HashOk (busy 56 1 []).sha1 ∧ (busy 56 1 []).sha1.phase = .updating ∧
    (after [.sha1Init] State.reset).sha1.phase = .init :=
  ⟨rfl, rfl, by decide, by decide, rfl, rfl⟩

theorem witness_Md4FinishGivesTheDigest : State.reset.md4.phase = .idle ∧ (finalizedUnit 4 0).phase = .finalized ∧
    HashOk (busy 55 1 []).md4 ∧ HashOk (busy 56 1 []).md4 ∧ (busy 56 1 []).md4.phase = .updating ∧
    (after [.md4Init] State.reset).md4.phase = .init :=
  ⟨rfl, rfl, by decide, by decide, rfl, rfl⟩

theorem witness_FinishAgreesWithPadding : HashOk (busy 63 1 []).sha1 ∧ (busy 63 1 []).sha1.phase.live = true ∧
    (busy 63 1 []).sha1.fill = (busy 63 1 []).sha1.total.toNat % 64 ∧ HashOk (busy 63 1 []).md4 ∧
    (busy 63 1 []).md4.phase.live = true ∧ (busy 63 1 []).md4.fill = (busy 63 1 []).md4.total.toNat % 64 := by
  decide

theorem witness_UpdateSplitInvariance : HashOk (busy 60 1 []).sha1 ∧ (busy 60 1 []).sha1.phase.live = true ∧
    HashOk (busy 60 1 []).md4 ∧ (busy 60 1 []).md4.phase.live = true := by decide

theorem witness_BadPhaseTraps : State.reset.sha1.phase = .idle ∧ State.reset.md4.phase = .idle ∧
    State.reset.prng.phase = .idle ∧ (finalizedUnit 5 0).phase = .finalized ∧ (finalizedUnit 4 0).phase = .finalized :=
  ⟨rfl, rfl, rfl, rfl, rfl⟩

theorem witness_PhaseTransitionTable : exec .sha1Init State.reset = .next (after [.sha1Init] State.reset) ∧
    exec (.md4Update []) State.reset = .next (after [.md4Update []] State.reset) := ⟨rfl, rfl⟩

/-- An access that ends at the buffer's end, and one a byte longer. -/
theorem witness_MemReadAfterMemWrite : 56 + (rep 0 8).length ≤ 64 ∧ 64 < 57 + (rep 0 8).length := by decide

theorem witness_MtNextTwistsAndTempers : State.reset.prng.phase = .idle ∧ (busy 0 0 []).prng.phase = .seeded ∧ (busy 0 0 []).prng.cur < 624 ∧
    (busy 0 623 []).prng.cur < 624 ∧ (busy 0 624 []).prng.cur = 624 := by decide

theorem witness_MtStreamForm : Instr.mtNew 5489 ∈ [Instr.mtNew 5489, Instr.mtFrom (Vector.replicate 624 1)] ∧
    Instr.mtFrom (Vector.replicate 624 1) ∈ [Instr.mtNew 5489, Instr.mtFrom (Vector.replicate 624 1)] :=
  ⟨List.mem_cons_self, List.mem_cons_of_mem _ List.mem_cons_self⟩

theorem witness_CloneFrom624Outputs : (busy 0 624 []).prng.phase = .seeded ∧ (busy 0 624 []).prng.cur ≤ 624 ∧
    (busy 0 1 []).prng.cur ≤ 624 := by decide

theorem witness_InvertRightShiftResult : ShiftOk 1 ∧ ShiftOk 31 := by decide

theorem witness_InvertLeftShiftResult : ShiftOk 1 ∧ ShiftOk 31 := by decide

theorem witness_ResetEventClearsTheLatch : (busy 1 1 [.reset, .command 0x30 []]).pending = .reset :: [.command 0x30 []] :=
  rfl

theorem witness_StepKeepsInv : CoreInv (busy 63 624 [.command 0x40 []]) ∧
    step (busy 63 624 [.command 0x40 []]) = .next (after [.md4Init] (busy 63 624 [.command 0x40 []])) :=
  ⟨by decide, rfl⟩

theorem witness_NeverStuck : CoreInv (busy 63 624 [.command 0x1010 [.bytes []]]) ∧
    Presentable (.command 0x1010 [.bytes []]) ∧ Presentable .reset ∧ Presentable (.command 0 [.u32 1]) := by
  refine ⟨by decide, fun o h => ?_, trivial, fun o h => ?_⟩
  · obtain rfl := Option.some.inj (h : some Opcode.pkcs7Pad = some o)
    rfl
  · cases (h : (none : Option Opcode) = some o)

/-- A command that answers `OK`, one with a fatal status, and one with the recoverable status. -/
theorem witness_OneCommandOneResponse :
    answer (step (busy 1 1 [.command 0x52 []])) = okWord 0xD1E6E2F8 ∧
    answer (step (busy 1 1 [.command 0x53 []])) = some ⟨.illegalCommand, .none⟩ ∧
    answer (step (busy 1 1 [.command 0x1012 [.bytes []]])) = some ⟨.invalidPadding, .none⟩ := by decide

theorem witness_NonOkStatusWritesOnlyTheLatch :
    step { State.reset with pending := [.command 0x52 []] } =
      .next ({ State.reset with pending := [.command 0x52 []] }.raise .badPhase) ∧
    ({ State.reset with pending := [.command 0x52 []] }.raise .badPhase).responses = [] ++ [⟨.badPhase, .none⟩] :=
  ⟨rfl, rfl⟩

theorem witness_StatusesAndTheirCommands : exec .mtNext State.reset = .next (State.reset.raise .badPhase) ∧
    (State.reset.raise .badPhase).responses = State.reset.responses ++ [⟨.badPhase, .none⟩] := ⟨rfl, rfl⟩

theorem witness_UnitsAreWrittenByTheirOwnCommands : exec .md4Init State.reset = .next (after [.md4Init] State.reset) ∧
    unitNumber Opcode.md4Init = 4 := ⟨rfl, by decide⟩

theorem witness_PureCommandsDoNotReadTheState : Instr.opcode (.ctrXform [] nonceR []) ∈ pureOpcodes := by decide

theorem witness_UnitCommandsReadTheirOwnUnit : exec .sha1Init (busy 1 1 []) = .next (after [.sha1Init] (busy 1 1 [])) ∧
    unitNumber Opcode.sha1Init = 3 ∧ unitNumber Opcode.md4Init = 4 ∧ unitNumber Opcode.mtNext = 5 ∧
    (busy 1 1 []).sha1 = (busy 1 2 []).sha1 := by
  exact ⟨rfl, by decide, by decide, by decide, rfl⟩

end Sys2Proof.Tests
end

/-! The byte-word conversions of spec 00_scope.md R14 as numbers: a word is the sum of its weighted bytes, and a byte of
a word is a quotient modulo 256. Both inverses then are facts of arithmetic. The little-endian word conversions are the
big-endian ones on the reversed bytes, so each fact is proved for one byte order. -/

namespace Sys2Proof.Machine

/-- Appending a byte below is multiplying by 256 and adding it. -/
theorem toNat_append_byte {n : Nat} (x : BitVec n) (b : Byte) : (x ++ b).toNat = x.toNat * 256 + b.toNat := by
  rw [BitVec.toNat_append, ← Nat.shiftLeft_add_eq_or_of_lt b.isLt, Nat.shiftLeft_eq]

/-- Eight bits of a word from bit `k` are a quotient of its number, modulo 256. -/
theorem toNat_extractLsb'_byte {n : Nat} (x : BitVec n) (k : Nat) :
    (x.extractLsb' k 8).toNat = x.toNat / 2 ^ k % 256 := by
  rw [BitVec.extractLsb'_toNat, Nat.shiftRight_eq_div_pow]

theorem be32_toNat (b : BytesN 4) :
    (be32 b).toNat = b[0].toNat * 2 ^ 24 + b[1].toNat * 2 ^ 16 + b[2].toNat * 2 ^ 8 + b[3].toNat := by
  simp only [be32, toNat_append_byte]
  omega

theorem le32_eq_be32_reverse (b : BytesN 4) : le32 b = be32 b.reverse := by
  simp [le32, be32]

theorem le32bytes_eq_reverse_be32bytes (w : Word) : le32bytes w = (be32bytes w).reverse := by
  ext i hi
  rw [le32bytes_getElem, Vector.getElem_reverse, be32bytes_getElem, show 24 - 8 * (4 - 1 - i) = 8 * i by omega]

/-- Byte `i` of the big-endian reading's bytes is that of weight `2 ^ (24 - 8 * i)` in the word. -/
theorem be32bytes_be32 (b : BytesN 4) : be32bytes (be32 b) = b := by
  ext i hi : 1
  refine BitVec.eq_of_toNat_eq ?_
  have h0 := b[0].isLt
  have h1 := b[1].isLt
  have h2 := b[2].isLt
  have h3 := b[3].isLt
  rw [be32bytes_getElem, toNat_extractLsb'_byte, be32_toNat]
  match i, hi with
  | 0, _ | 1, _ | 2, _ | 3, _ => omega

/-- A word is the sum of its four bytes by weight. -/
theorem be32_be32bytes (w : Word) : be32 (be32bytes w) = w := by
  refine BitVec.eq_of_toNat_eq ?_
  have hw := w.isLt
  simp only [be32_toNat, be32bytes_getElem, toNat_extractLsb'_byte]
  omega

theorem le32_toNat (b : BytesN 4) :
    (le32 b).toNat = b[0].toNat + b[1].toNat * 2 ^ 8 + b[2].toNat * 2 ^ 16 + b[3].toNat * 2 ^ 24 := by
  rw [le32_eq_be32_reverse, be32_toNat]
  simp only [Vector.getElem_reverse, Nat.reduceSub]
  omega

theorem le32bytes_le32 (b : BytesN 4) : le32bytes (le32 b) = b := by
  rw [le32bytes_eq_reverse_be32bytes, le32_eq_be32_reverse, be32bytes_be32, Vector.reverse_reverse]

theorem le32_le32bytes (w : Word) : le32 (le32bytes w) = w := by
  rw [le32_eq_be32_reverse, le32bytes_eq_reverse_be32bytes, Vector.reverse_reverse, be32_be32bytes]

theorem be64bytes_toNat (v : DWord) (i : Fin 8) :
    (be64bytes v)[i].toNat = v.toNat / 2 ^ (56 - 8 * i.val) % 256 := by
  rw [Fin.getElem_fin, be64bytes_getElem, toNat_extractLsb'_byte]

theorem le64bytes_toNat (v : DWord) (i : Fin 8) : (le64bytes v)[i].toNat = v.toNat / 2 ^ (8 * i.val) % 256 := by
  rw [Fin.getElem_fin, le64bytes_getElem, toNat_extractLsb'_byte]

/-- Settles O40, from the number each conversion gives and the inverses of both byte orders. -/
theorem byteWordConversions : Obligations.ByteWordConversions :=
  ⟨fun b => ⟨be32_toNat b, le32_toNat b, be32bytes_be32 b, le32bytes_le32 b⟩,
    fun w => ⟨be32_be32bytes w, le32_le32bytes w⟩,
    fun v i => ⟨be64bytes_toNat v i, le64bytes_toNat v i⟩⟩

end Sys2Proof.Machine

/-! Reset (spec 10_state.md R40, 70_reset_and_hazards.md R260): the values after it, and the step that takes it. -/

namespace Sys2Proof.Machine

open Sys2Proof.Safety

/-- With a reset at the head of the queue a step is the reset event (R260), latched or not. -/
theorem step_of_pending_reset {s : State} {rest : List HostEvent} (h : s.pending = .reset :: rest) :
    step s = .next s.resetEvent := by
  rw [step, nextEvent, h]

theorem HashUnit.reset_ok (nw : Nat) : HashOk (HashUnit.reset nw) :=
  ⟨⟨List.Pairwise.nil, List.forall_mem_nil _⟩, Nat.zero_le 63, fun hlive => by cases hlive⟩

theorem Prng.reset_ok : PrngOk Prng.reset :=
  ⟨Nat.zero_le 624, fun hseeded => by cases hseeded⟩

/-- Settles O50: each field is the one `State.reset` is built with. -/
theorem resetLatchAndPhases : Obligations.ResetLatchAndPhases :=
  ⟨rfl, rfl, rfl, rfl, rfl⟩

/-- Settles O51: the step is the reset event, which takes the reset off the queue. -/
theorem resetEventClearsTheLatch : Obligations.ResetEventClearsTheLatch := by
  intro s rest h
  have hpending : s.resetEvent.pending = rest := by rw [State.resetEvent_pending, h, List.tail_cons]
  exact ⟨s.resetEvent, step_of_pending_reset h, rfl, rfl, rfl, rfl, rfl, hpending⟩

/-- Settles O52, unit by unit. -/
theorem invAtReset : Obligations.InvAtReset :=
  ⟨.inl ⟨rfl, rfl⟩, HashUnit.reset_ok 5, HashUnit.reset_ok 4, Prng.reset_ok⟩

end Sys2Proof.Machine

/-! What a command reads and writes (spec 10_state.md R25, R26, R33, R37, 45_prng_mt19937.md R200). Every command is
brought to one of two forms: it answers with a response fixed by the command alone, or it applies a rule to the registers
of its own unit, stores what the rule gives and answers. That no other unit is read or written is then a fact about the
form and not about the 23 commands. -/

namespace Sys2Proof.Machine

open Sys2Proof.Safety

/-- End a command with the response `r`, of whatever status: the common form of `State.ok` and `State.raise`. -/
def State.conclude (r : Response) (s : State) : State :=
  (if r.status.fatal then s.latch r.status else s).respond r

theorem State.ok_eq_conclude (r : Result) (s : State) : s.ok r = s.conclude ⟨.ok, r⟩ := rfl
theorem State.raise_eq_conclude (st : Status) (s : State) : s.raise st = s.conclude ⟨st, .none⟩ := rfl

@[simp] theorem State.conclude_sha1 (s : State) (r : Response) : (s.conclude r).sha1 = s.sha1 := by
  unfold State.conclude; split <;> rfl
@[simp] theorem State.conclude_md4 (s : State) (r : Response) : (s.conclude r).md4 = s.md4 := by
  unfold State.conclude; split <;> rfl
@[simp] theorem State.conclude_prng (s : State) (r : Response) : (s.conclude r).prng = s.prng := by
  unfold State.conclude; split <;> rfl
@[simp] theorem State.conclude_responses (s : State) (r : Response) :
    (s.conclude r).responses = s.responses ++ [r] := by
  unfold State.conclude; split <;> rfl
@[simp] theorem State.conclude_freeCount (s : State) (r : Response) : (s.conclude r).freeCount = s.freeCount := by
  unfold State.conclude; split <;> rfl

/-! ### Commands that do not look at the state -/

/-- The command gives one and the same response in every state, and does nothing else but latch a fatal status. -/
def StateFree (c : State → Host.Outcome State Fault Refusal) : Prop :=
  ∃ r : Response, ∀ s, c s = .next (s.conclude r)

theorem stateFree_ok (r : Result) : StateFree fun s => .next (s.ok r) :=
  ⟨⟨.ok, r⟩, fun s => congrArg _ (State.ok_eq_conclude r s)⟩

theorem stateFree_raise (st : Status) : StateFree fun s => .next (s.raise st) :=
  ⟨⟨st, .none⟩, fun s => congrArg _ (State.raise_eq_conclude st s)⟩

theorem execPkcs7Pad_stateFree (n : Nat) (data : Bytes) : StateFree (execPkcs7Pad n data) := by
  unfold execPkcs7Pad
  split
  · exact stateFree_raise _
  · exact stateFree_ok _

theorem execPkcs7TryStrip_stateFree (n : Nat) (data : Bytes) : StateFree (execPkcs7TryStrip n data) := by
  unfold execPkcs7TryStrip
  split
  · exact stateFree_ok _
  · exact stateFree_raise _

theorem execEcbEnc_stateFree (key data : Bytes) : StateFree (execEcbEnc key data) := by
  unfold execEcbEnc
  split
  · exact stateFree_raise _
  · exact stateFree_ok _

theorem execEcbDec_stateFree (key data : Bytes) : StateFree (execEcbDec key data) := by
  unfold execEcbDec
  split
  · exact stateFree_raise _
  · split
    · exact stateFree_raise _
    · exact stateFree_ok _

theorem execCbcEnc_stateFree (key : Bytes) (iv : Block) (data : Bytes) : StateFree (execCbcEnc key iv data) := by
  unfold execCbcEnc
  split
  · exact stateFree_raise _
  · exact stateFree_ok _

theorem execCbcDec_stateFree (key : Bytes) (iv : Block) (data : Bytes) : StateFree (execCbcDec key iv data) := by
  unfold execCbcDec
  split
  · exact stateFree_raise _
  · split
    · exact stateFree_raise _
    · exact stateFree_ok _

theorem execCtrXform_stateFree (key : Bytes) (nonce : BytesN 8) (data : Bytes) :
    StateFree (execCtrXform key nonce data) := by
  unfold execCtrXform
  split
  · exact stateFree_raise _
  · exact stateFree_ok _

/-- The pure commands of R25, R26 and R37 do not look at the state. -/
theorem exec_stateFree {i : Instr} (h : i.opcode ∈ pureOpcodes) : StateFree (exec i) := by
  cases i with
  | pkcs7Pad n data => exact execPkcs7Pad_stateFree n data
  | pkcs7Strip n data => exact stateFree_ok _
  | pkcs7TryStrip n data => exact execPkcs7TryStrip_stateFree n data
  | ecbEnc key data => exact execEcbEnc_stateFree key data
  | ecbDec key data => exact execEcbDec_stateFree key data
  | cbcEnc key iv data => exact execCbcEnc_stateFree key iv data
  | cbcDec key iv data => exact execCbcDec_stateFree key iv data
  | ctrXform key nonce data => exact execCtrXform_stateFree key nonce data
  | sha1Padding length => exact stateFree_ok _
  | md4Padding length => exact stateFree_ok _
  | mtInvRshift shift y => exact stateFree_ok _
  | mtInvLshift shift y mask => exact stateFree_ok _
  | sha1Init | sha1InitState | sha1Update | sha1Finish | md4Init | md4InitState | md4Update | md4Finish
  | mtNew | mtFrom | mtNext => simp [Instr.opcode, pureOpcodes] at h

/-- Settles O59: a state-free command's response is the same in every state, and concluding writes no unit. -/
theorem pureCommandsDoNotReadTheState : Obligations.PureCommandsDoNotReadTheState := by
  intro i hpure
  obtain ⟨r, hr⟩ := exec_stateFree hpure
  exact ⟨r, fun s => ⟨s.conclude r, hr s, by simp⟩⟩

/-! ### Commands that work on their own unit -/

/-- A command that reads the registers of one unit, applies its rule to them, stores what the rule gives, and answers. -/
def runOn {U W : Type} (read : State → U) (store : W → State → State) (rule : U → Except Fault (W × Response))
    (s : State) : Host.Outcome State Fault Refusal :=
  match rule (read s) with
  | .ok (w, r) => .next ((store w s).conclude r)
  | .error e => .fault e

section
variable {U W : Type} {read : State → U} {store : W → State → State} {rule : U → Except Fault (W × Response)}

theorem runOn_of_ok {s : State} {w : W} {r : Response} (h : rule (read s) = .ok (w, r)) :
    runOn read store rule s = .next ((store w s).conclude r) := by
  simp only [runOn, h]

theorem runOn_next {s t : State} (h : runOn read store rule s = .next t) :
    ∃ w r, rule (read s) = .ok (w, r) ∧ t = (store w s).conclude r := by
  unfold runOn at h
  split at h
  · next w r hrule => cases h; exact ⟨w, r, hrule, rfl⟩
  · cases h

/-- Two states that agree on the unit read get the same registers stored and the same response. -/
theorem runOn_congr {s s' t : State} (hread : read s = read s') (h : runOn read store rule s = .next t) :
    ∃ w r, rule (read s) = .ok (w, r) ∧ t = (store w s).conclude r ∧
      runOn read store rule s' = .next ((store w s').conclude r) := by
  obtain ⟨w, r, hrule, ht⟩ := runOn_next h
  exact ⟨w, r, hrule, ht, runOn_of_ok (hread ▸ hrule)⟩

end

/-- What a hash command leaves in its unit: registers its rule gives, or the unspecified ones of a finish (R31, R147). -/
inductive HashWrite (nw : Nat) where
  | registers (u : HashUnit nw)
  | unspecified

/-- The phase a write leaves; a finish fixes it alone (R147). -/
def HashWrite.phase {nw : Nat} : HashWrite nw → HashPhase
  | .registers u => u.phase
  | .unspecified => .finalized

/-- Leave the SHA1 unit as the write says; unspecified registers take the next free values. -/
def State.storeSha1 : HashWrite 5 → State → State
  | .registers u, s => s.setSha1 u
  | .unspecified, s => (s.setSha1 (finalizedUnit 5 s.freeCount)).bumpFree

/-- Leave the MD4 unit as the write says; unspecified registers take the next free values. -/
def State.storeMd4 : HashWrite 4 → State → State
  | .registers u, s => s.setMd4 u
  | .unspecified, s => (s.setMd4 (finalizedUnit 4 s.freeCount)).bumpFree

@[simp] theorem State.storeSha1_registers (s : State) (u : HashUnit 5) : s.storeSha1 (.registers u) = s.setSha1 u := rfl
@[simp] theorem State.storeSha1_phase (s : State) (w : HashWrite 5) : (s.storeSha1 w).sha1.phase = w.phase := by
  cases w <;> rfl
@[simp] theorem State.storeSha1_md4 (s : State) (w : HashWrite 5) : (s.storeSha1 w).md4 = s.md4 := by
  cases w <;> rfl
@[simp] theorem State.storeSha1_prng (s : State) (w : HashWrite 5) : (s.storeSha1 w).prng = s.prng := by
  cases w <;> rfl
@[simp] theorem State.storeSha1_responses (s : State) (w : HashWrite 5) : (s.storeSha1 w).responses = s.responses := by
  cases w <;> rfl

@[simp] theorem State.storeMd4_registers (s : State) (u : HashUnit 4) : s.storeMd4 (.registers u) = s.setMd4 u := rfl
@[simp] theorem State.storeMd4_phase (s : State) (w : HashWrite 4) : (s.storeMd4 w).md4.phase = w.phase := by
  cases w <;> rfl
@[simp] theorem State.storeMd4_sha1 (s : State) (w : HashWrite 4) : (s.storeMd4 w).sha1 = s.sha1 := by
  cases w <;> rfl
@[simp] theorem State.storeMd4_prng (s : State) (w : HashWrite 4) : (s.storeMd4 w).prng = s.prng := by
  cases w <;> rfl
@[simp] theorem State.storeMd4_responses (s : State) (w : HashWrite 4) : (s.storeMd4 w).responses = s.responses := by
  cases w <;> rfl

/-- The rule of an update, for either hash unit (R145): only a live context takes data. -/
def updateRule {nw : Nat} (alg : HashAlg nw) (data : Bytes) (u : HashUnit nw) :
    Except Fault (HashWrite nw × Response) :=
  if u.phase.live then
    match hashUpdate alg u data with
    | .ok u' => .ok (.registers u', ⟨.ok, .none⟩)
    | .error e => .error e
  else .ok (.registers u, ⟨.badPhase, .none⟩)

/-- The rule of a finish, for either hash unit (R147). -/
def finishRule {nw : Nat} (alg : HashAlg nw) (u : HashUnit nw) : Except Fault (HashWrite nw × Response) :=
  if u.phase.live then
    match hashFinish alg u with
    | .ok d => .ok (.unspecified, ⟨.ok, .bytes d⟩)
    | .error e => .error e
  else .ok (.registers u, ⟨.badPhase, .none⟩)

/-- The rule of `MT_NEXT` (R207). -/
def nextRule (p : Prng) : Except Fault (Prng × Response) :=
  match p.phase with
  | .idle => .ok (p, ⟨.badPhase, .none⟩)
  | .seeded =>
    match mtAdvance p with
    | some (q, out) => .ok (q, ⟨.ok, .word out⟩)
    | none => .error .cursorRange

/-- The rule leaves no register of its unit unspecified. -/
def Specified {nw : Nat} (rule : HashUnit nw → Except Fault (HashWrite nw × Response)) : Prop :=
  ∀ u w r, rule u = .ok (w, r) → ∃ v, w = .registers v

theorem specified_registers {nw : Nat} (f : HashUnit nw → HashUnit nw) (r : Response) :
    Specified fun u => .ok (.registers (f u), r) := by
  rintro u w r' ⟨⟩
  exact ⟨f u, rfl⟩

theorem updateRule_specified {nw : Nat} (alg : HashAlg nw) (data : Bytes) : Specified (updateRule alg data) := by
  intro u w r h
  unfold updateRule at h
  split at h
  · split at h
    · next v _ => cases h; exact ⟨v, rfl⟩
    · cases h
  · cases h; exact ⟨u, rfl⟩

theorem execSha1Update_eq_runOn (data : Bytes) (s : State) :
    execSha1Update data s = runOn State.sha1 State.storeSha1 (updateRule sha1Alg data) s := by
  unfold execSha1Update runOn updateRule
  split
  · cases hashUpdate sha1Alg s.sha1 data <;> rfl
  · rfl

theorem execSha1Finish_eq_runOn (s : State) :
    execSha1Finish s = runOn State.sha1 State.storeSha1 (finishRule sha1Alg) s := by
  unfold execSha1Finish runOn finishRule
  split
  · cases hashFinish sha1Alg s.sha1 <;> rfl
  · rfl

theorem execMd4Update_eq_runOn (data : Bytes) (s : State) :
    execMd4Update data s = runOn State.md4 State.storeMd4 (updateRule md4Alg data) s := by
  unfold execMd4Update runOn updateRule
  split
  · cases hashUpdate md4Alg s.md4 data <;> rfl
  · rfl

theorem execMd4Finish_eq_runOn (s : State) :
    execMd4Finish s = runOn State.md4 State.storeMd4 (finishRule md4Alg) s := by
  unfold execMd4Finish runOn finishRule
  split
  · cases hashFinish md4Alg s.md4 <;> rfl
  · rfl

theorem execMtNext_eq_runOn (s : State) : execMtNext s = runOn State.prng State.setPrng nextRule s := by
  unfold execMtNext runOn nextRule
  cases s.prng.phase with
  | idle => rfl
  | seeded => cases mtAdvance s.prng <;> rfl

/-- Every `SHA1_` command works on the SHA1 unit, and only a finish leaves registers unspecified (R33). -/
theorem exec_eq_runOn_sha1 {i : Instr} (h : unitNumber i.opcode = 3) :
    ∃ rule, (∀ s, exec i s = runOn State.sha1 State.storeSha1 rule s) ∧
      (i.opcode ≠ .sha1Finish → Specified rule) := by
  cases i with
  | sha1Init => exact ⟨_, fun _ => rfl, fun _ => specified_registers (hashInit sha1Alg) ⟨.ok, .none⟩⟩
  | sha1InitState digest consumed =>
    exact ⟨_, fun _ => rfl,
      fun _ => specified_registers (fun u => hashInitState sha1Alg u digest consumed) ⟨.ok, .none⟩⟩
  | sha1Update data => exact ⟨_, execSha1Update_eq_runOn data, fun _ => updateRule_specified sha1Alg data⟩
  | sha1Finish => exact ⟨_, execSha1Finish_eq_runOn, fun hne => absurd rfl hne⟩
  | sha1Padding length =>
    exact ⟨_, fun _ => rfl, fun _ => specified_registers id ⟨.ok, .bytes (padBytes sha1Alg length)⟩⟩
  | _ => exact absurd h (by simp [Instr.opcode, unitNumber, Opcode.number])

/-- Every `MD4_` command works on the MD4 unit, and only a finish leaves registers unspecified (R33). -/
theorem exec_eq_runOn_md4 {i : Instr} (h : unitNumber i.opcode = 4) :
    ∃ rule, (∀ s, exec i s = runOn State.md4 State.storeMd4 rule s) ∧
      (i.opcode ≠ .md4Finish → Specified rule) := by
  cases i with
  | md4Init => exact ⟨_, fun _ => rfl, fun _ => specified_registers (hashInit md4Alg) ⟨.ok, .none⟩⟩
  | md4InitState digest consumed =>
    exact ⟨_, fun _ => rfl,
      fun _ => specified_registers (fun u => hashInitState md4Alg u digest consumed) ⟨.ok, .none⟩⟩
  | md4Update data => exact ⟨_, execMd4Update_eq_runOn data, fun _ => updateRule_specified md4Alg data⟩
  | md4Finish => exact ⟨_, execMd4Finish_eq_runOn, fun hne => absurd rfl hne⟩
  | md4Padding length =>
    exact ⟨_, fun _ => rfl, fun _ => specified_registers id ⟨.ok, .bytes (padBytes md4Alg length)⟩⟩
  | _ => exact absurd h (by simp [Instr.opcode, unitNumber, Opcode.number])

/-- Every `MT_` command works on the generator (R200). -/
theorem exec_eq_runOn_prng {i : Instr} (h : unitNumber i.opcode = 5) :
    ∃ rule, ∀ s, exec i s = runOn State.prng State.setPrng rule s := by
  cases i with
  | mtNew seed => exact ⟨fun _ => .ok (⟨seedExpand seed, 624, .seeded⟩, ⟨.ok, .none⟩), fun _ => rfl⟩
  | mtFrom words => exact ⟨fun _ => .ok (⟨words, 624, .seeded⟩, ⟨.ok, .none⟩), fun _ => rfl⟩
  | mtNext => exact ⟨nextRule, execMtNext_eq_runOn⟩
  | mtInvRshift shift y => exact ⟨fun p => .ok (p, ⟨.ok, .word (invertRightShift y shift)⟩), fun _ => rfl⟩
  | mtInvLshift shift y mask => exact ⟨fun p => .ok (p, ⟨.ok, .word (invertLeftShift y shift mask)⟩), fun _ => rfl⟩
  | _ => exact absurd h (by simp [Instr.opcode, unitNumber, Opcode.number])

/-- A command is pure or belongs to one of the three units that hold state (R25, R26, R72). -/
theorem pure_or_unitNumber (o : Opcode) :
    o ∈ pureOpcodes ∨ unitNumber o = 3 ∨ unitNumber o = 4 ∨ unitNumber o = 5 := by
  cases o <;> decide

/-- Settles O58: a pure command writes no unit, and any other stores into the unit it works on. -/
theorem unitsAreWrittenByTheirOwnCommands : Obligations.UnitsAreWrittenByTheirOwnCommands := by
  intro i s t hexec
  rcases pure_or_unitNumber i.opcode with hpure | hunit | hunit | hunit
  · obtain ⟨r, hr⟩ := exec_stateFree hpure
    obtain rfl : s.conclude r = t := by rw [hr] at hexec; cases hexec; rfl
    simp
  · obtain ⟨rule, hrun, hspec⟩ := exec_eq_runOn_sha1 hunit
    obtain ⟨w, r, hrule, rfl⟩ := runOn_next (hrun s ▸ hexec)
    refine ⟨fun hne => absurd hunit hne, fun _ => by simp, fun _ => by simp, fun hne _ => ?_⟩
    obtain ⟨v, rfl⟩ := hspec hne _ _ _ hrule
    simp
  · obtain ⟨rule, hrun, hspec⟩ := exec_eq_runOn_md4 hunit
    obtain ⟨w, r, hrule, rfl⟩ := runOn_next (hrun s ▸ hexec)
    refine ⟨fun _ => by simp, fun hne => absurd hunit hne, fun _ => by simp, fun _ hne => ?_⟩
    obtain ⟨v, rfl⟩ := hspec hne _ _ _ hrule
    simp
  · obtain ⟨rule, hrun⟩ := exec_eq_runOn_prng hunit
    obtain ⟨p, r, -, rfl⟩ := runOn_next (hrun s ▸ hexec)
    exact ⟨fun _ => by simp, fun _ => by simp, fun hne => absurd hunit hne, fun _ _ => by simp⟩

/-- Settles O60: in two states that agree on the unit the rule gives the same write and the same response, and a write
fixes the unit unless it leaves the registers unspecified, and its phase always. -/
theorem unitCommandsReadTheirOwnUnit : Obligations.UnitCommandsReadTheirOwnUnit := by
  intro i s s' t hexec
  refine ⟨fun hunit hread => ?_, fun hunit hread => ?_, fun hunit hread => ?_⟩
  · obtain ⟨rule, hrun, hspec⟩ := exec_eq_runOn_sha1 hunit
    obtain ⟨w, r, hrule, rfl, hexec'⟩ := runOn_congr hread (hrun s ▸ hexec)
    refine ⟨_, r, (hrun s').trans hexec', by simp, by simp, by simp, fun hne => ?_⟩
    obtain ⟨v, rfl⟩ := hspec hne _ _ _ hrule
    simp
  · obtain ⟨rule, hrun, hspec⟩ := exec_eq_runOn_md4 hunit
    obtain ⟨w, r, hrule, rfl, hexec'⟩ := runOn_congr hread (hrun s ▸ hexec)
    refine ⟨_, r, (hrun s').trans hexec', by simp, by simp, by simp, fun hne => ?_⟩
    obtain ⟨v, rfl⟩ := hspec hne _ _ _ hrule
    simp
  · obtain ⟨rule, hrun⟩ := exec_eq_runOn_prng hunit
    obtain ⟨p, r, -, rfl, hexec'⟩ := runOn_congr hread (hrun s ▸ hexec)
    exact ⟨_, r, (hrun s').trans hexec', by simp, by simp, by simp⟩

end Sys2Proof.Machine

/-! The block buffers (spec 20_memory.md R52): what a whole byte string written gives back, offset by offset. -/

namespace Sys2Proof.Machine

/-- Writing a byte string leaves every offset outside it as it was. -/
theorem Memory.read_writeBytes_outside {k : Nat} (v : Bytes) :
    ∀ (m : Memory) {a : Nat}, k < a ∨ a + v.length ≤ k → (m.writeBytes a v).read k = m.read k := by
  induction v with
  | nil => exact fun _ _ _ => rfl
  | cons b bs ih =>
    intro m a hk
    rw [List.length_cons] at hk
    calc (m.writeBytes a (b :: bs)).read k
        = (m.write a b).read k := ih _ (by omega)
      _ = m.read k := Memory.read_write_other m b (by omega)

/-- Offset `a + i` holds byte `i` of the byte string written from `a` up: the first byte is at `a` and no later byte is
written over it. -/
theorem Memory.read_writeBytes_inside (v : Bytes) :
    ∀ (m : Memory) (a : Nat) {i : Nat} (hi : i < v.length), (m.writeBytes a v).read (a + i) = some v[i] := by
  induction v with
  | nil => exact fun _ _ _ hi => absurd hi (Nat.not_lt_zero _)
  | cons b bs ih =>
    intro m a i hi
    cases i with
    | zero =>
      calc (m.writeBytes a (b :: bs)).read a
          = (m.write a b).read a := Memory.read_writeBytes_outside bs _ (.inl (Nat.lt_succ_self a))
        _ = some b := Memory.read_write_same m a b
    | succ i =>
      rw [← Nat.succ_add_eq_add_succ]
      exact ih (m.write a b) (a + 1) (Nat.lt_of_succ_lt_succ hi)

theorem memWrite_of_le (m : Memory) {a : Nat} {v : Bytes} (h : a + v.length ≤ bufSize) :
    memWrite m a v = .ok (m.writeBytes a v) :=
  if_pos h

theorem memWrite_of_lt (m : Memory) {a : Nat} {v : Bytes} (h : bufSize < a + v.length) :
    memWrite m a v = .error .bufferOffset :=
  if_neg (Nat.not_le.2 h)

theorem memRead_of_lt (m : Memory) {a n : Nat} (h : bufSize < a + n) : memRead m a n = .error .bufferOffset :=
  if_neg (Nat.not_le.2 h)

/-- A read of the same length at the same offset gives the byte string just written. -/
theorem memRead_writeBytes (m : Memory) {a : Nat} {v : Bytes} (h : a + v.length ≤ bufSize) :
    memRead (m.writeBytes a v) a v.length = .ok ⟨v.toArray, rfl⟩ :=
  memRead_ok h fun i => Memory.read_writeBytes_inside v m a i.isLt

/-- Settles O41: the buffer after the write holds the bytes written at their offsets and the old ones at every other. -/
theorem memReadAfterMemWrite : Obligations.MemReadAfterMemWrite := by
  intro m a v
  refine ⟨fun hin => ?_, fun hout => ⟨memWrite_of_lt m hout, memRead_of_lt m hout⟩⟩
  exact ⟨m.writeBytes a v, ⟨v.toArray, rfl⟩, memWrite_of_le m hin, memRead_writeBytes m hin, rfl,
    fun k hk => Memory.read_writeBytes_outside v m hk⟩

end Sys2Proof.Machine

/-! The alignment check of both decrypt commands (spec 20_memory.md R58), which stands after the key check (R238). -/

namespace Sys2Proof.Machine

open Sys2Proof.Safety

/-- A fatal status ends the command in the trapped state of its own code (R235, R236). -/
theorem State.raise_eq_traps {st : Status} (hfatal : st.fatal = true) (s : State) : s.raise st = traps s st st.code :=
  State.raise_of_fatal s st hfatal

/-- With a 16-byte key `ECB_DEC` is left with the alignment check (R115). -/
theorem execEcbDec_key (k : Key) (data : Bytes) (s : State) :
    execEcbDec k.toList data s =
      if data.length % 16 ≠ 0 then .next (s.raise .misalignedCiphertext)
      else .next (s.ok (.bytes (ecbDecrypt (Config.ciphDec k) data))) := by
  rw [execEcbDec, bytesN?_toList]

/-- With a 16-byte key `CBC_DEC` is left with the alignment check (R118). -/
theorem execCbcDec_key (k : Key) (iv : Block) (data : Bytes) (s : State) :
    execCbcDec k.toList iv data s =
      if data.length % 16 ≠ 0 then .next (s.raise .misalignedCiphertext)
      else .next (s.ok (.bytes (cbcDecrypt (Config.ciphDec k) iv data))) := by
  rw [execCbcDec, bytesN?_toList]

/-- Settles O22: both commands pass the key check and fail the alignment check. -/
theorem misalignedCiphertextTraps : Obligations.MisalignedCiphertextTraps := by
  intro k iv data s hmisaligned
  have htraps : s.raise .misalignedCiphertext = traps s .misalignedCiphertext 3 := State.raise_eq_traps rfl s
  rw [← htraps]
  constructor
  · calc exec (.ecbDec k.toList data) s
        = execEcbDec k.toList data s := rfl
      _ = .next (s.raise .misalignedCiphertext) := by rw [execEcbDec_key, if_pos hmisaligned]
  · calc exec (.cbcDec k.toList iv data) s
        = execCbcDec k.toList iv data s := rfl
      _ = .next (s.raise .misalignedCiphertext) := by rw [execCbcDec_key, if_pos hmisaligned]

end Sys2Proof.Machine

/-! The encoding (spec 30_encoding.md R71 to R77, R81): when a word is legal, said of its fields, of its number and of the
masks of the opcode table; and what the decoder reads from a word and its operands, from which both directions of the
round trip follow. -/

namespace Sys2Proof

/-! ### The range of an immediate -/

/-- The least legal `ARG` of a kind (R74). -/
def ArgKind.least : ArgKind → Nat
  | .zero => 0
  | .blockSize => 8
  | .shift => 1

/-- The greatest legal `ARG` of a kind (R74). -/
def ArgKind.greatest : ArgKind → Nat
  | .zero => 0
  | .blockSize => 16
  | .shift => 31

theorem ArgKind.legal_iff (k : ArgKind) (a : Nat) : k.legal a = true ↔ k.least ≤ a ∧ a ≤ k.greatest := by
  cases k with
  | zero => simp [ArgKind.legal, ArgKind.least, ArgKind.greatest]
  | blockSize => exact decide_eq_true_iff
  | shift => exact decide_eq_true_iff

/-- A legal immediate fits the five bits of `ARG`. -/
theorem ArgKind.lt_of_legal {k : ArgKind} {a : Nat} (h : k.legal a = true) : a < 32 := by
  have hgreatest : k.greatest < 32 := by cases k <;> decide
  exact Nat.lt_of_le_of_lt ((k.legal_iff a).1 h).2 hgreatest

/-! ### Legal words -/

theorem selectRow_commandWord {o : Opcode} {a : Nat} (h : o.argKind.legal a = true) :
    selectRow (commandWord o a) = some o := by
  obtain ⟨hzero, hopc, harg⟩ := commandWord_fields o (ArgKind.lt_of_legal h)
  exact selectRow_eq_some.2 ⟨hzero, hopc, harg.symm ▸ h⟩

/-- A legal word is the command word of its own row and `ARG` field. -/
theorem commandWord_of_selectRow {w : BitVec 32} {o : Opcode} (h : selectRow w = some o) :
    commandWord o (argField w).toNat = w := by
  obtain ⟨hzero, hopc, -⟩ := selectRow_eq_some.1 h
  rw [← BitVec.toNat_inj, commandWord_toNat o (argField w).isLt, toNat_of_fields hzero, hopc]

/-! ### What the decoder reads -/

theorem bindOperands_self (i : Instr) : bindOperands i.opcode i.arg i.operands = some i := by
  cases i <;> rfl

theorem decode_eq_illegal_iff {w : BitVec 32} {ops : List Operand} :
    decode w ops = .error .illegal ↔ selectRow w = none := by
  unfold decode
  cases selectRow w with
  | none => simp
  | some o => cases hbind : bindOperands o (argField w).toNat ops <;> simp [hbind]

theorem decode_of_selectRow {w : BitVec 32} {o : Opcode} {ops : List Operand} {i : Instr} (hrow : selectRow w = some o)
    (hbind : bindOperands o (argField w).toNat ops = some i) : decode w ops = .ok i := by
  simp only [decode, hrow, hbind]

/-- The decoder reads a command exactly when the word selects its row and carries its immediate and the operands are its
own: nothing of the word or of the operands is left out. -/
theorem decode_eq_ok_iff {w : BitVec 32} {ops : List Operand} {i : Instr} :
    decode w ops = .ok i ↔ selectRow w = some i.opcode ∧ i.arg = (argField w).toNat ∧ i.operands = ops := by
  constructor
  · intro h
    unfold decode at h
    split at h
    · cases h
    · next o hrow =>
      split at h
      · cases h
      · next j hbind =>
        cases h
        obtain ⟨rfl, hops, harg⟩ := bindOperands_some hbind
        obtain ⟨-, -, hlegal⟩ := selectRow_eq_some.1 hrow
        refine ⟨hrow, harg.trans ?_, hops⟩
        split
        · next hkind => rw [hkind] at hlegal; exact (beq_iff_eq.1 hlegal).symm
        · rfl
  · rintro ⟨hrow, harg, rfl⟩
    exact decode_of_selectRow hrow (harg ▸ bindOperands_self i)

/-- Settles O5: the word selects the command's row and carries its immediate. -/
theorem decodeOfEncode : Obligations.DecodeOfEncode := by
  intro i hwf
  have hlegal := (wellFormed_iff_legal i).1 hwf
  obtain ⟨-, -, harg⟩ := commandWord_fields i.opcode (ArgKind.lt_of_legal hlegal)
  exact decode_eq_ok_iff.2 ⟨selectRow_commandWord hlegal, harg.symm, rfl⟩

/-- Settles O6: the row fixes the opcode, `ARG` the immediate, and a legal word is the word of the two. -/
theorem encodeOfDecode : Obligations.EncodeOfDecode := by
  intro w ops i hdecode
  obtain ⟨hrow, harg, hops⟩ := decode_eq_ok_iff.1 hdecode
  obtain ⟨-, -, hlegal⟩ := selectRow_eq_some.1 hrow
  refine ⟨(wellFormed_iff_legal i).2 (harg ▸ hlegal), Prod.ext ?_ hops⟩
  calc commandWord i.opcode i.arg
      = commandWord i.opcode (argField w).toNat := by rw [harg]
    _ = w := commandWord_of_selectRow hrow

/-- Settles O8: each legal sample is the encoding of the command it stands for; the last word selects no row. -/
theorem sampleWordsDecode : Obligations.SampleWordsDecode :=
  ⟨decodeOfEncode (.pkcs7Pad 16 [0x41]) (by decide), decodeOfEncode (.pkcs7TryStrip 12 []) (by decide),
    decodeOfEncode (.ecbDec [1] [2]) trivial, decodeOfEncode .sha1Finish trivial, decodeOfEncode (.md4Padding 3) trivial,
    decodeOfEncode (.mtInvLshift 7 1 2) (by decide), decode_eq_illegal_iff.2 (by decide)⟩

/-! ### Operand types -/

/-- The operand is one value of the type's constructor (R73). -/
def OperandType.Holds : OperandType → Operand → Prop
  | .bytes, p => ∃ b, p = .bytes b
  | .bytes8, p => ∃ b, p = .bytes8 b
  | .bytes16, p => ∃ b, p = .bytes16 b
  | .bytes20, p => ∃ b, p = .bytes20 b
  | .u32, p => ∃ v, p = .u32 v
  | .u64, p => ∃ v, p = .u64 v
  | .words624, p => ∃ w, p = .words624 w

theorem Operand.type_holds (p : Operand) : p.type.Holds p := by
  cases p <;> exact ⟨_, rfl⟩

theorem Instr.operands_types (i : Instr) : i.operands.map Operand.type = i.opcode.signature := by
  cases i <;> rfl

theorem operands_of_one_type {ops : List Operand} {t : OperandType} (h : ops.map Operand.type = [t]) :
    ∃ p, ops = [p] ∧ t.Holds p := by
  obtain ⟨p, rfl, rfl⟩ := List.map_eq_singleton_iff.1 h
  exact ⟨p, rfl, p.type_holds⟩

theorem operands_of_two_types {ops : List Operand} {t u : OperandType} (h : ops.map Operand.type = [t, u]) :
    ∃ p q, ops = [p, q] ∧ t.Holds p ∧ u.Holds q := by
  obtain ⟨p, ops, rfl, rfl, htail⟩ := List.map_eq_cons_iff.1 h
  obtain ⟨q, rfl, hq⟩ := operands_of_one_type htail
  exact ⟨p, q, rfl, p.type_holds, hq⟩

theorem operands_of_three_types {ops : List Operand} {t u v : OperandType} (h : ops.map Operand.type = [t, u, v]) :
    ∃ p q r, ops = [p, q, r] ∧ t.Holds p ∧ u.Holds q ∧ v.Holds r := by
  obtain ⟨p, ops, rfl, rfl, htail⟩ := List.map_eq_cons_iff.1 h
  obtain ⟨q, r, rfl, hq, hr⟩ := operands_of_two_types htail
  exact ⟨p, q, r, rfl, p.type_holds, hq, hr⟩

/-- Operands of the row's types bind, by the number of operands the row has. -/
theorem bindOperands_of_types {o : Opcode} (n : Nat) {ops : List Operand} (h : ops.map Operand.type = o.signature) :
    ∃ i, bindOperands o n ops = some i := by
  cases o
  case sha1Init | sha1Finish | md4Init | md4Finish | mtNext =>
    obtain rfl := List.map_eq_nil_iff.1 h
    exact ⟨_, rfl⟩
  case pkcs7Pad | pkcs7Strip | pkcs7TryStrip | sha1Update | sha1Padding | md4Update | md4Padding | mtNew | mtFrom
      | mtInvRshift =>
    obtain ⟨_, rfl, _, rfl⟩ := operands_of_one_type h
    exact ⟨_, rfl⟩
  case ecbEnc | ecbDec | sha1InitState | md4InitState | mtInvLshift =>
    obtain ⟨_, _, rfl, ⟨_, rfl⟩, _, rfl⟩ := operands_of_two_types h
    exact ⟨_, rfl⟩
  case cbcEnc | cbcDec | ctrXform =>
    obtain ⟨_, _, _, rfl, ⟨_, rfl⟩, ⟨_, rfl⟩, _, rfl⟩ := operands_of_three_types h
    exact ⟨_, rfl⟩

/-- Settles O7: operands of the row's types bind, and a command's own operands have its row's types. -/
theorem legalWordDecodesWithItsOperandTypes : Obligations.LegalWordDecodesWithItsOperandTypes := by
  intro w o hrow ops
  constructor
  · intro htypes
    obtain ⟨i, hbind⟩ := bindOperands_of_types (argField w).toNat htypes
    obtain ⟨hopcode, -, -⟩ := bindOperands_some hbind
    exact ⟨i, decode_of_selectRow hrow hbind, hopcode⟩
  · rintro ⟨i, hdecode, rfl⟩
    obtain ⟨-, -, rfl⟩ := decode_eq_ok_iff.1 hdecode
    exact i.operands_types

end Sys2Proof

/-! The opcode table in its mask and match form (spec 30_encoding.md R76): each row is built from its opcode, so that a
match says of a word's fields what the decoder asks of them. -/

namespace Sys2Proof.Safety

/-- The bits of `ARG` that a row's mask looks at: all of them where `ARG` must be 0, none where it is an immediate. -/
def argMask : ArgKind → BitVec 5
  | .zero => BitVec.allOnes 5
  | .blockSize | .shift => 0

/-- The row of the table for an opcode, its mask and pattern written field by field. -/
def rowOf (o : Opcode) : TableRow :=
  { opcode := o
    mask := BitVec.allOnes 19 ++ argMask o.argKind ++ BitVec.allOnes 8
    pattern := 0#19 ++ 0#5 ++ o.number
    argMin := o.argKind.least
    argMax := o.argKind.greatest }

theorem tableRows_eq : tableRows = Opcode.all.map rowOf := by decide

theorem mem_tableRows_iff {row : TableRow} : row ∈ tableRows ↔ ∃ o, rowOf o = row := by
  have hall : ∀ o, o ∈ Opcode.all := by intro o; cases o <;> decide
  simp [tableRows_eq, hall]

theorem rowOf_pattern_toNat (o : Opcode) : (rowOf o).pattern.toNat = o.number.toNat := by
  cases o <;> rfl

theorem bitVec_append_inj {m n : Nat} {a c : BitVec m} {b d : BitVec n} : a ++ b = c ++ d ↔ a = c ∧ b = d := by
  constructor
  · intro h
    have hleft := congrArg (BitVec.extractLsb' n m) h
    have hright := congrArg (BitVec.extractLsb' 0 n) h
    rw [BitVec.extractLsb'_append_eq_left, BitVec.extractLsb'_append_eq_left] at hleft
    rw [BitVec.extractLsb'_append_eq_right, BitVec.extractLsb'_append_eq_right] at hright
    exact ⟨hleft, hright⟩
  · rintro ⟨rfl, rfl⟩
    rfl

theorem fields_append (w : BitVec 32) : zeroField w ++ argField w ++ opcField w = w := by
  have hupper : zeroField w ++ argField w = w.extractLsb' 8 24 :=
    BitVec.extractLsb'_append_extractLsb'_eq_extractLsb' rfl
  calc zeroField w ++ argField w ++ opcField w
      = w.extractLsb' 8 24 ++ w.extractLsb' 0 8 := by rw [hupper, opcField]
    _ = w.extractLsb' 0 32 := BitVec.extractLsb'_append_extractLsb'_eq_extractLsb' rfl
    _ = w := BitVec.extractLsb'_eq_self

/-- A word matches a row when its opcode is the row's and no bit is set where the row has none (R76). -/
theorem matches_rowOf_iff {w : BitVec 32} {o : Opcode} :
    w &&& (rowOf o).mask = (rowOf o).pattern ↔
      zeroField w = 0 ∧ argField w &&& argMask o.argKind = 0 ∧ opcField w = o.number := by
  have hmasked : w &&& (rowOf o).mask = zeroField w ++ (argField w &&& argMask o.argKind) ++ opcField w :=
    calc w &&& (rowOf o).mask
        = (zeroField w ++ argField w ++ opcField w) &&&
            (BitVec.allOnes 19 ++ argMask o.argKind ++ BitVec.allOnes 8) := by rw [fields_append]; rfl
      _ = zeroField w ++ (argField w &&& argMask o.argKind) ++ opcField w := by
        rw [BitVec.and_append, BitVec.and_append, BitVec.and_allOnes, BitVec.and_allOnes]
  rw [hmasked, rowOf, bitVec_append_inj, bitVec_append_inj, and_assoc]
  rfl

/-- A legal `ARG` has no bit that its row's mask looks at. -/
theorem and_argMask_of_legal {k : ArgKind} {a : BitVec 5} (h : k.legal a.toNat = true) : a &&& argMask k = 0 := by
  cases k with
  | zero =>
    obtain rfl : a = 0 := BitVec.eq_of_toNat_eq (beq_iff_eq.1 h)
    rfl
  | blockSize => exact BitVec.and_zero
  | shift => exact BitVec.and_zero

/-- A row with `ARG` in its range selects a word exactly when the decoder does. -/
theorem rowOf_selects_iff {w : BitVec 32} {o : Opcode} : (rowOf o).selects w ↔ selectRow w = some o := by
  have hselects : (rowOf o).selects w ↔
      w &&& (rowOf o).mask = (rowOf o).pattern ∧ o.argKind.legal (argField w).toNat = true := by
    rw [ArgKind.legal_iff]
    rfl
  rw [hselects, matches_rowOf_iff, selectRow_eq_some]
  constructor
  · rintro ⟨⟨hzero, -, hopc⟩, hlegal⟩
    exact ⟨hzero, hopc, hlegal⟩
  · rintro ⟨hzero, hopc, hlegal⟩
    exact ⟨⟨hzero, and_argMask_of_legal hlegal, hopc⟩, hlegal⟩

/-- Two opcodes with one number are the same (R72). -/
theorem opcode_number_injective : Function.Injective Opcode.number := by
  intro o o' h
  have hof : Opcode.ofNumber o.number = Opcode.ofNumber o'.number := congrArg Opcode.ofNumber h
  rw [Opcode.ofNumber_number, Opcode.ofNumber_number] at hof
  exact Option.some.inj hof

/-- Settles O4: each opcode's row selects as the decoder does, and two rows that match a word share its opcode number. -/
theorem rowsSelectByMaskAndMatch : Obligations.RowsSelectByMaskAndMatch := by
  refine ⟨fun w o => ⟨fun hrow => ?_, ?_⟩, fun w r1 hr1 r2 hr2 hmatch1 hmatch2 => ?_⟩
  · exact ⟨rowOf o, mem_tableRows_iff.2 ⟨o, rfl⟩, rfl, rowOf_selects_iff.2 hrow⟩
  · rintro ⟨row, hmem, rfl, hselects⟩
    obtain ⟨o, rfl⟩ := mem_tableRows_iff.1 hmem
    exact rowOf_selects_iff.1 hselects
  · obtain ⟨o1, rfl⟩ := mem_tableRows_iff.1 hr1
    obtain ⟨o2, rfl⟩ := mem_tableRows_iff.1 hr2
    obtain ⟨-, -, hopc1⟩ := matches_rowOf_iff.1 hmatch1
    obtain ⟨-, -, hopc2⟩ := matches_rowOf_iff.1 hmatch2
    exact congrArg rowOf (opcode_number_injective (hopc1.symm.trans hopc2))

/-- The legal words as numbers, `OPC + 256 * ARG` with `ARG` in the row's range (R71, R75). -/
theorem exists_row_number_iff {w : BitVec 32} :
    (∃ row ∈ tableRows, ∃ arg, row.argMin ≤ arg ∧ arg ≤ row.argMax ∧ w.toNat = row.pattern.toNat + 256 * arg) ↔
      ∃ o, selectRow w = some o := by
  constructor
  · rintro ⟨row, hmem, arg, hmin, hmax, hw⟩
    obtain ⟨o, rfl⟩ := mem_tableRows_iff.1 hmem
    have hlegal : o.argKind.legal arg = true := (o.argKind.legal_iff arg).2 ⟨hmin, hmax⟩
    have hword : w = commandWord o arg := by
      rw [← BitVec.toNat_inj, hw, rowOf_pattern_toNat, commandWord_toNat o (ArgKind.lt_of_legal hlegal)]
    exact ⟨o, hword ▸ selectRow_commandWord hlegal⟩
  · rintro ⟨o, hrow⟩
    obtain ⟨hzero, hopc, hlegal⟩ := selectRow_eq_some.1 hrow
    obtain ⟨hmin, hmax⟩ := (o.argKind.legal_iff _).1 hlegal
    refine ⟨rowOf o, mem_tableRows_iff.2 ⟨o, rfl⟩, (argField w).toNat, hmin, hmax, ?_⟩
    rw [rowOf_pattern_toNat, ← hopc, toNat_of_fields hzero]

end Sys2Proof.Safety

/-! The decode procedure of a step (spec 30_encoding.md R81) and the one response of a command (R70, R80). -/

namespace Sys2Proof.Machine

open Sys2Proof.Safety

/-! ### The checks before a command's rule -/

section
variable {s : State} {w : BitVec 32} {ops : List Operand} {rest : List HostEvent}

/-- With a command at the head of the queue a step issues it (R8, R62). -/
theorem step_of_pending_command (hpending : s.pending = .command w ops :: rest) : step s = issue w ops s := by
  rw [step, nextEvent, hpending]

theorem issue_of_fault (hfault : s.fault = true) : issue w ops s = .next (s.raise .faulted) :=
  if_pos hfault

theorem issue_of_illegal (hfault : s.fault = false) (hrow : selectRow w = none) :
    issue w ops s = .next (s.raise .illegalCommand) := by
  simp only [issue, hfault, decode_eq_illegal_iff.2 hrow, Bool.false_eq_true, if_false]

theorem issue_of_decode {i : Instr} (hfault : s.fault = false) (hdecode : decode w ops = .ok i) :
    issue w ops s = exec i s := by
  simp only [issue, hfault, hdecode, Bool.false_eq_true, if_false]

/-- The three ways in which issuing a command reaches a next state (R81). -/
theorem issue_next {t : State} (h : issue w ops s = .next t) :
    (s.fault = true ∧ t = s.raise .faulted) ∨
    (s.fault = false ∧ selectRow w = none ∧ t = s.raise .illegalCommand) ∨
    (s.fault = false ∧ ∃ i, decode w ops = .ok i ∧ exec i s = .next t) := by
  unfold issue at h
  split at h
  · next hfault => cases h; exact .inl ⟨hfault, rfl⟩
  · next hfault =>
    have hclear : s.fault = false := Bool.eq_false_of_not_eq_true hfault
    split at h
    · next hillegal => cases h; exact .inr (.inl ⟨hclear, decode_eq_illegal_iff.1 hillegal, rfl⟩)
    · cases h
    · next i hdecode => exact .inr (.inr ⟨hclear, i, hdecode, h⟩)

/-- The latch is answered before anything of the command is looked at, and nothing else changes (R237). -/
theorem step_of_fault (hpending : s.pending = .command w ops :: rest) (hfault : s.fault = true) :
    step s = .next { s with pending := rest, responses := s.responses ++ [⟨.faulted, .none⟩] } := by
  rw [step_of_pending_command hpending, issue_of_fault hfault, State.raise_of_not_fatal s .faulted rfl, State.respond,
    hpending, List.tail_cons]

/-- With the latch clear an illegal word traps, whatever its operands (R75, R81). -/
theorem step_of_illegal (hpending : s.pending = .command w ops :: rest) (hfault : s.fault = false)
    (hrow : selectRow w = none) : step s = .next (traps s .illegalCommand 5) := by
  rw [step_of_pending_command hpending, issue_of_illegal hfault hrow, State.raise_eq_traps rfl]
  rfl

end

/-- Settles O1, outcome by outcome. -/
theorem stepRunsTheDecodedCommand : Obligations.StepRunsTheDecodedCommand := by
  intro s w ops rest hpending
  refine ⟨step_of_fault hpending, step_of_illegal hpending, fun hfault i hdecode => ?_⟩
  obtain ⟨hrow, -, hops⟩ := decode_eq_ok_iff.1 hdecode
  exact ⟨hrow, hops, (step_of_pending_command hpending).trans (issue_of_decode hfault hdecode)⟩

/-- Settles O3: the numbers of the table's rows are the words that select a row, and a word that selects none is
illegal. -/
theorem illegalWordsTrap : Obligations.IllegalWordsTrap := by
  intro w
  rw [exists_row_number_iff]
  constructor
  · rintro ⟨o, hrow⟩ ops hillegal
    exact Option.some_ne_none o (hrow.symm.trans (decode_eq_illegal_iff.1 hillegal))
  · intro hnone s ops rest hfault hpending
    have hrow : selectRow w = none := Option.eq_none_iff_forall_ne_some.2 fun o ho => hnone ⟨o, ho⟩
    exact step_of_illegal hpending hfault hrow

/-! ### One response -/

/-- The two states differ in nothing but the units' registers and the count behind their free values. -/
structure AgreeOffUnits (s s' : State) : Prop where
  fault : s'.fault = s.fault
  fcode : s'.fcode = s.fcode
  pending : s'.pending = s.pending
  responses : s'.responses = s.responses

/-- How a command's rule can end: `OK` with a result of the kind `k` after writing unit registers at most, a raised
status, or a fault of the model. -/
inductive Ends (k : ResultKind) (s : State) : Host.Outcome State Fault Refusal → Prop where
  | ok {s' : State} {r : Result} (hoff : AgreeOffUnits s s') (hfits : k.fits r = true) : Ends k s (.next (s'.ok r))
  | raise {st : Status} (hst : st ≠ .ok) : Ends k s (.next (s.raise st))
  | fault (e : Fault) : Ends k s (.fault e)

section
variable {s : State}

theorem AgreeOffUnits.refl (s : State) : AgreeOffUnits s s := ⟨rfl, rfl, rfl, rfl⟩
theorem AgreeOffUnits.setSha1 (u : HashUnit 5) : AgreeOffUnits s (s.setSha1 u) := ⟨rfl, rfl, rfl, rfl⟩
theorem AgreeOffUnits.setMd4 (u : HashUnit 4) : AgreeOffUnits s (s.setMd4 u) := ⟨rfl, rfl, rfl, rfl⟩
theorem AgreeOffUnits.setPrng (p : Prng) : AgreeOffUnits s (s.setPrng p) := ⟨rfl, rfl, rfl, rfl⟩

theorem ends_bytes (b : Bytes) : Ends .bytes s (.next (s.ok (.bytes b))) := .ok (.refl s) rfl
theorem ends_word (v : Word) : Ends .word s (.next (s.ok (.word v))) := .ok (.refl s) rfl
theorem ends_raise {k : ResultKind} (st : Status) (hst : st ≠ .ok := by decide) : Ends k s (.next (s.raise st)) :=
  .raise hst

theorem execPkcs7Pad_ends (n : Nat) (data : Bytes) : Ends .bytes s (execPkcs7Pad n data s) := by
  unfold execPkcs7Pad
  split
  · exact ends_raise .oversizedBlock
  · exact ends_bytes _

theorem execPkcs7TryStrip_ends (n : Nat) (data : Bytes) : Ends .bytes s (execPkcs7TryStrip n data s) := by
  unfold execPkcs7TryStrip
  split
  · exact ends_bytes _
  · exact ends_raise .invalidPadding

theorem execEcbEnc_ends (key data : Bytes) : Ends .bytes s (execEcbEnc key data s) := by
  unfold execEcbEnc
  split
  · exact ends_raise .invalidKeyLength
  · exact ends_bytes _

theorem execEcbDec_ends (key data : Bytes) : Ends .bytes s (execEcbDec key data s) := by
  unfold execEcbDec
  split
  · exact ends_raise .invalidKeyLength
  · split
    · exact ends_raise .misalignedCiphertext
    · exact ends_bytes _

theorem execCbcEnc_ends (key : Bytes) (iv : Block) (data : Bytes) : Ends .bytes s (execCbcEnc key iv data s) := by
  unfold execCbcEnc
  split
  · exact ends_raise .invalidKeyLength
  · exact ends_bytes _

theorem execCbcDec_ends (key : Bytes) (iv : Block) (data : Bytes) : Ends .bytes s (execCbcDec key iv data s) := by
  unfold execCbcDec
  split
  · exact ends_raise .invalidKeyLength
  · split
    · exact ends_raise .misalignedCiphertext
    · exact ends_bytes _

theorem execCtrXform_ends (key : Bytes) (nonce : BytesN 8) (data : Bytes) :
    Ends .bytes s (execCtrXform key nonce data s) := by
  unfold execCtrXform
  split
  · exact ends_raise .invalidKeyLength
  · exact ends_bytes _

theorem execSha1Update_ends (data : Bytes) : Ends .none s (execSha1Update data s) := by
  unfold execSha1Update
  split
  · split
    · exact .ok (.setSha1 _) rfl
    · exact .fault _
  · exact ends_raise .badPhase

theorem execSha1Finish_ends : Ends .bytes s (execSha1Finish s) := by
  unfold execSha1Finish
  split
  · split
    · exact .ok ⟨rfl, rfl, rfl, rfl⟩ rfl
    · exact .fault _
  · exact ends_raise .badPhase

theorem execMd4Update_ends (data : Bytes) : Ends .none s (execMd4Update data s) := by
  unfold execMd4Update
  split
  · split
    · exact .ok (.setMd4 _) rfl
    · exact .fault _
  · exact ends_raise .badPhase

theorem execMd4Finish_ends : Ends .bytes s (execMd4Finish s) := by
  unfold execMd4Finish
  split
  · split
    · exact .ok ⟨rfl, rfl, rfl, rfl⟩ rfl
    · exact .fault _
  · exact ends_raise .badPhase

theorem execMtNext_ends : Ends .word s (execMtNext s) := by
  unfold execMtNext
  split
  · exact ends_raise .badPhase
  · split
    · exact .ok (.setPrng _) rfl
    · exact .fault _

/-- Every command ends in one of the ways its row of R72 allows. -/
theorem exec_ends (i : Instr) (s : State) : Ends (resultKind i.opcode) s (exec i s) := by
  cases i with
  | pkcs7Pad n data => exact execPkcs7Pad_ends n data
  | pkcs7Strip n data => exact ends_bytes _
  | pkcs7TryStrip n data => exact execPkcs7TryStrip_ends n data
  | ecbEnc key data => exact execEcbEnc_ends key data
  | ecbDec key data => exact execEcbDec_ends key data
  | cbcEnc key iv data => exact execCbcEnc_ends key iv data
  | cbcDec key iv data => exact execCbcDec_ends key iv data
  | ctrXform key nonce data => exact execCtrXform_ends key nonce data
  | sha1Init => exact .ok (.setSha1 _) rfl
  | sha1InitState digest consumed => exact .ok (.setSha1 _) rfl
  | sha1Update data => exact execSha1Update_ends data
  | sha1Finish => exact execSha1Finish_ends
  | sha1Padding length => exact ends_bytes _
  | md4Init => exact .ok (.setMd4 _) rfl
  | md4InitState digest consumed => exact .ok (.setMd4 _) rfl
  | md4Update data => exact execMd4Update_ends data
  | md4Finish => exact execMd4Finish_ends
  | md4Padding length => exact ends_bytes _
  | mtNew seed => exact .ok (.setPrng _) rfl
  | mtFrom words => exact .ok (.setPrng _) rfl
  | mtNext => exact execMtNext_ends
  | mtInvRshift shift y => exact ends_word _
  | mtInvLshift shift y mask => exact ends_word _

theorem State.raise_response (s : State) {st : Status} (hst : st ≠ .ok) :
    ∃ r : Response, (s.raise st).responses = s.responses ++ [r] ∧ r.status ≠ .ok ∧ r.result = .none :=
  ⟨⟨st, .none⟩, State.raise_responses s st, hst, rfl⟩

/-- A rule that reaches a next state takes its command off the queue and gives one response, with a result of the
kind `k` on `OK` and none otherwise (R70, R80). -/
theorem Ends.response {k : ResultKind} {t : State} (h : Ends k s (.next t)) :
    t.pending = s.pending.tail ∧ ∃ r : Response, t.responses = s.responses ++ [r] ∧
      (r.status ≠ .ok → r.result = .none) ∧ (r.status = .ok → k.fits r.result = true) := by
  cases h with
  | ok hoff hfits =>
    rw [State.ok_pending, State.ok_responses, hoff.pending, hoff.responses]
    exact ⟨rfl, _, rfl, fun hne => absurd rfl hne, fun _ => hfits⟩
  | raise hst =>
    obtain ⟨r, hresponses, hne, hnone⟩ := State.raise_response s hst
    exact ⟨State.raise_pending s _, r, hresponses, fun _ => hnone, fun heq => absurd heq hne⟩

end

/-- Settles O55: a check before the rule answers with a status that is not `OK`, and the rule ends as its row allows. -/
theorem oneCommandOneResponse : Obligations.OneCommandOneResponse := by
  intro s t w ops rest hpending hstep
  have hrest : s.pending.tail = rest := by rw [hpending, List.tail_cons]
  rw [step_of_pending_command hpending] at hstep
  rcases issue_next hstep with ⟨-, rfl⟩ | ⟨-, -, rfl⟩ | ⟨-, i, hdecode, hexec⟩
  · obtain ⟨r, hresponses, hne, hnone⟩ := State.raise_response s (st := .faulted) (by decide)
    exact ⟨(State.raise_pending s _).trans hrest, r, hresponses, fun _ => hnone, fun heq => absurd heq hne⟩
  · obtain ⟨r, hresponses, hne, hnone⟩ := State.raise_response s (st := .illegalCommand) (by decide)
    exact ⟨(State.raise_pending s _).trans hrest, r, hresponses, fun _ => hnone, fun heq => absurd heq hne⟩
  · have hends := exec_ends i s
    rw [hexec] at hends
    obtain ⟨htail, r, hresponses, hnone, hfits⟩ := hends.response
    exact ⟨htail.trans hrest, r, hresponses, hnone, fun hok => ⟨i, hdecode, hfits hok⟩⟩

end Sys2Proof.Machine

/-! PKCS#7 padding (spec 40_pkcs7.md R91 to R98). The checker finds `v` exactly when the bytes are some data followed by
`v` bytes `v`; that data is then what both strips return, and what the padder was given. -/

namespace Sys2Proof.Machine

open Sys2Proof.Safety

/-! ### The checker -/

section
variable {n v : Nat} {a b : Bytes}

/-- What the tests of `PadLen` have found once it gives `v` (R91). -/
theorem padLen_eq_some (h : padLen n b = some v) :
    1 ≤ v ∧ v ≤ n ∧ v ≤ b.length ∧ ∀ x ∈ b.drop (b.length - v), x = BitVec.ofNat 8 v := by
  unfold padLen at h
  split at h
  · cases h
  next last _ =>
    have hlast : BitVec.ofNat 8 last.toNat = last := (BitVec.ofNat_toNat 8 last).trans (BitVec.setWidth_eq last)
    simp only [Option.ite_none_left_eq_some, Option.ite_none_right_eq_some, Option.some.injEq] at h
    obtain ⟨hpos, hmax, hlen, hall, rfl⟩ := h
    rw [hlast]
    exact ⟨by omega, by omega, by omega, fun x hx => eq_of_beq (List.all_eq_true.1 hall x hx)⟩

theorem paddedWith_of_padLen (h : padLen n b = some v) : PaddedWith n b (b.take (b.length - v)) v := by
  obtain ⟨hpos, hmax, hlen, hall⟩ := padLen_eq_some h
  have htail : b.drop (b.length - v) = List.replicate v (BitVec.ofNat 8 v) :=
    List.eq_replicate_iff.2 ⟨by rw [List.length_drop]; omega, hall⟩
  refine ⟨hpos, hmax, ?_⟩
  rw [← htail, List.take_append_drop]

/-- The data before the padding is fixed by the number of padding bytes. -/
theorem take_of_paddedWith (h : PaddedWith n b a v) : b.take (b.length - v) = a := by
  obtain ⟨-, -, rfl⟩ := h
  rw [List.length_append, List.length_replicate, Nat.add_sub_cancel, List.take_left]

theorem drop_of_paddedWith (h : PaddedWith n b a v) :
    b.drop (b.length - v) = List.replicate v (BitVec.ofNat 8 v) := by
  obtain ⟨-, -, rfl⟩ := h
  rw [List.length_append, List.length_replicate, Nat.add_sub_cancel, List.drop_left]

/-- Every test of `PadLen` passes on padded bytes, whatever the data (R92). A count up to the block size fits a byte, so
the last byte is read back as the count. -/
theorem padLen_of_paddedWith (hsize : BlockSizeOk n) (h : PaddedWith n b a v) : padLen n b = some v := by
  have hdrop := drop_of_paddedWith h
  obtain ⟨hpos, hmax, hb⟩ := h
  have hbyte : (BitVec.ofNat 8 v).toNat = v := Nat.mod_eq_of_lt (by omega)
  have hlen : v ≤ b.length := by simp [hb]
  have hlast : b.getLast? = some (BitVec.ofNat 8 v) := by
    rw [hb, List.getLast?_append, List.getLast?_replicate, if_neg (by omega), Option.some_or]
  simp only [padLen, hlast, hbyte, hdrop]
  rw [if_neg (by omega), if_neg (by omega), if_neg (by omega), if_pos (by simp)]

theorem padLen_eq_none (h : ∀ a v, ¬ PaddedWith n b a v) : padLen n b = none :=
  Option.eq_none_iff_forall_ne_some.2 fun v hv => h _ v (paddedWith_of_padLen hv)

end

/-- Settles O9: the tests of `PadLen` pass on padded bytes, and on no others. -/
theorem padLenAcceptsExactlyValidPadding : Obligations.PadLenAcceptsExactlyValidPadding := by
  intro n b v hsize
  exact ⟨fun h => ⟨_, paddedWith_of_padLen h⟩, fun ⟨_, h⟩ => padLen_of_paddedWith hsize h⟩

/-! ### The strips and the padder -/

/-- A command that answers `OK` without writing a register. -/
theorem State.ok_eq_answers (r : Result) (s : State) : s.ok r = answers s r := rfl

section
variable {n v : Nat} {a b : Bytes}

theorem stripLenient_of_paddedWith (hsize : BlockSizeOk n) (h : PaddedWith n b a v) : stripLenient n b = a := by
  simp only [stripLenient, padLen_of_paddedWith hsize h, take_of_paddedWith h]

theorem stripLenient_of_unpadded (h : ∀ a v, ¬ PaddedWith n b a v) : stripLenient n b = b := by
  simp only [stripLenient, padLen_eq_none h]

theorem stripLenient_stripped (hsize : BlockSizeOk n) (b : Bytes) : Stripped n b (stripLenient n b) :=
  ⟨fun _ _ h => stripLenient_of_paddedWith hsize h, stripLenient_of_unpadded⟩

theorem execPkcs7TryStrip_of_paddedWith (hsize : BlockSizeOk n) (h : PaddedWith n b a v) (s : State) :
    execPkcs7TryStrip n b s = .next (answers s (.bytes a)) := by
  simp only [execPkcs7TryStrip, padLen_of_paddedWith hsize h, take_of_paddedWith h, State.ok_eq_answers]

theorem execPkcs7TryStrip_of_unpadded (h : ∀ a v, ¬ PaddedWith n b a v) (s : State) :
    execPkcs7TryStrip n b s = .next (s.raise .invalidPadding) := by
  simp only [execPkcs7TryStrip, padLen_eq_none h]

theorem execPkcs7Pad_of_le (h : b.length ≤ n) (s : State) :
    execPkcs7Pad n b s = .next (answers s (.bytes (padTo n b))) :=
  if_neg (Nat.not_lt.2 h)

theorem execPkcs7Pad_of_lt (h : n < b.length) (s : State) :
    execPkcs7Pad n b s = .next (s.raise .oversizedBlock) :=
  if_pos h

theorem padTo_length (h : b.length ≤ n) : (padTo n b).length = n := by
  rw [padTo, List.length_append, rep_length, Nat.add_sub_cancel' h]

/-- Data shorter than the block gets at least one byte of padding, so its block is validly padded (R98). -/
theorem padTo_paddedWith (h : b.length < n) : PaddedWith n (padTo n b) b (n - b.length) :=
  ⟨by omega, by omega, rfl⟩

end

/-- Settles O11: the answer is the lenient strip of the data. -/
theorem stripResult : Obligations.StripResult := by
  intro n data s hsize
  exact ⟨stripLenient n data, rfl, stripLenient_stripped hsize data⟩

/-- Settles O12: `InvalidPadding` is not fatal, so raising it leaves the latch alone. -/
theorem tryStripResult : Obligations.TryStripResult := by
  intro n data s hsize
  constructor
  · intro a v hpadded
    exact execPkcs7TryStrip_of_paddedWith hsize hpadded s
  · intro hunpadded
    calc exec (.pkcs7TryStrip n data) s
        = execPkcs7TryStrip n data s := rfl
      _ = .next (s.raise .invalidPadding) := execPkcs7TryStrip_of_unpadded hunpadded s
      _ = _ := by rw [State.raise_of_not_fatal s .invalidPadding rfl, State.respond]

/-- Settles O13: the padded block is `b` followed by valid padding, and each strip gives the data before it. -/
theorem padThenStrip : Obligations.PadThenStrip := by
  intro n b s s' hsize hlt
  have hpadded := padTo_paddedWith hlt
  refine ⟨padTo n b, execPkcs7Pad_of_le hlt.le s, execPkcs7TryStrip_of_paddedWith hsize hpadded s', ?_⟩
  calc exec (.pkcs7Strip n (padTo n b)) s'
      = .next (answers s' (.bytes (stripLenient n (padTo n b)))) := rfl
    _ = .next (answers s' (.bytes b)) := by rw [stripLenient_of_paddedWith hsize hpadded]

/-- Settles O10, by the check of the length. -/
theorem padResult : Obligations.PadResult := by
  intro n data s _
  constructor
  · intro hle
    exact ⟨padTo n data, execPkcs7Pad_of_le hle s, padTo_length hle, rfl⟩
  · intro hlt
    have htraps : s.raise .oversizedBlock = traps s .oversizedBlock 2 := State.raise_eq_traps rfl s
    rw [← htraps]
    exact execPkcs7Pad_of_lt hlt s

end Sys2Proof.Machine

/-! The MODES commands (spec 41_block_modes.md R111 to R126). The key check is said once for the five commands. What a
chain of blocks holds is said block by block, and the frame of the blocks then has each of them at its place. -/

namespace Sys2Proof.Machine

open Sys2Proof.Safety

/-! ### The key check -/

/-- The form of the five MODES commands: the key check, then what the command does with a 16-byte key (R111). -/
def keyChecked (key : Bytes) (s : State) (f : Key → Host.Outcome State Fault Refusal) :
    Host.Outcome State Fault Refusal :=
  match bytesN? 16 key with
  | none => .next (s.raise .invalidKeyLength)
  | some k => f k

section
variable {key : Bytes} (k : Key) (iv : Block) (nonce : BytesN 8) (data : Bytes) (s : State)

theorem keyChecked_of_length_ne (h : key.length ≠ 16) (f : Key → Host.Outcome State Fault Refusal) :
    keyChecked key s f = .next (traps s .invalidKeyLength 4) := by
  have htraps : s.raise .invalidKeyLength = traps s .invalidKeyLength 4 := State.raise_eq_traps rfl s
  rw [keyChecked, bytesN?_none h, htraps]

theorem keyChecked_toList (f : Key → Host.Outcome State Fault Refusal) : keyChecked k.toList s f = f k := by
  rw [keyChecked, bytesN?_toList]

theorem exec_ecbEnc_wrongKey (h : key.length ≠ 16) :
    exec (.ecbEnc key data) s = .next (traps s .invalidKeyLength 4) :=
  keyChecked_of_length_ne s h _

theorem exec_ecbDec_wrongKey (h : key.length ≠ 16) :
    exec (.ecbDec key data) s = .next (traps s .invalidKeyLength 4) :=
  keyChecked_of_length_ne s h _

theorem exec_cbcEnc_wrongKey (h : key.length ≠ 16) :
    exec (.cbcEnc key iv data) s = .next (traps s .invalidKeyLength 4) :=
  keyChecked_of_length_ne s h _

theorem exec_cbcDec_wrongKey (h : key.length ≠ 16) :
    exec (.cbcDec key iv data) s = .next (traps s .invalidKeyLength 4) :=
  keyChecked_of_length_ne s h _

theorem exec_ctrXform_wrongKey (h : key.length ≠ 16) :
    exec (.ctrXform key nonce data) s = .next (traps s .invalidKeyLength 4) :=
  keyChecked_of_length_ne s h _

/-! ### What each command answers with a 16-byte key -/

theorem exec_ecbEnc_key :
    exec (.ecbEnc k.toList data) s = .next (answers s (.bytes (ecbEncrypt (Config.ciphEnc k) data))) :=
  keyChecked_toList k s fun k => .next (answers s (.bytes (ecbEncrypt (Config.ciphEnc k) data)))

theorem exec_cbcEnc_key :
    exec (.cbcEnc k.toList iv data) s = .next (answers s (.bytes (cbcEncrypt (Config.ciphEnc k) iv data))) :=
  keyChecked_toList k s fun k => .next (answers s (.bytes (cbcEncrypt (Config.ciphEnc k) iv data)))

theorem exec_ctrXform_key :
    exec (.ctrXform k.toList nonce data) s = .next (answers s (.bytes (ctrTransform (Config.ciphEnc k) nonce data))) :=
  keyChecked_toList k s fun k => .next (answers s (.bytes (ctrTransform (Config.ciphEnc k) nonce data)))

/-- The key check passed, the alignment check is the only other one of `ECB_DEC` (R115). -/
theorem exec_ecbDec_aligned (h : data.length % 16 = 0) :
    exec (.ecbDec k.toList data) s = .next (answers s (.bytes (ecbDecrypt (Config.ciphDec k) data))) :=
  (execEcbDec_key k data s).trans (if_neg (not_not_intro h))

/-- The key check passed, the alignment check is the only other one of `CBC_DEC` (R118). -/
theorem exec_cbcDec_aligned (h : data.length % 16 = 0) :
    exec (.cbcDec k.toList iv data) s = .next (answers s (.bytes (cbcDecrypt (Config.ciphDec k) iv data))) :=
  (execCbcDec_key k iv data s).trans (if_neg (not_not_intro h))

end

/-- Settles O21, command by command. -/
theorem wrongKeyLengthTraps : Obligations.WrongKeyLengthTraps := by
  intro key data iv nonce s h
  exact ⟨exec_ecbEnc_wrongKey data s h, exec_ecbDec_wrongKey data s h, exec_cbcEnc_wrongKey iv data s h,
    exec_cbcDec_wrongKey iv data s h, exec_ctrXform_wrongKey nonce data s h⟩

/-! ### The blocks a command reads -/

/-- Block `i` of the padded data is the chunker's (R112). -/
theorem chunks_blockAt {data : Bytes} {i : Nat} (h : i ≤ data.length / 16) :
    ∃ p : Block, (chunks data)[i]? = some p ∧ BlockAt (paddedData data) i p := by
  obtain ⟨hlen, hframe⟩ := chunks_spec data
  have hget := List.getElem?_eq_getElem (l := chunks data) (i := i) (by omega)
  exact ⟨_, hget, hframe ▸ frame_blockAt hget⟩

/-- An aligned string is cut into all of its blocks (R113). -/
theorem fullBlocks_aligned {data : Bytes} (h : data.length % 16 = 0) :
    16 * (fullBlocks data (data.length / 16)).length = data.length ∧
      frame (fullBlocks data (data.length / 16)) = data := by
  have hlen : data.length = 16 * (data.length / 16) := by omega
  rw [(fullBlocks_spec data _ hlen.ge).1]
  exact ⟨hlen.symm, frame_fullBlocks hlen⟩

theorem fullBlocks_blockAt {data : Bytes} {i : Nat} (h : i < data.length / 16) :
    ∃ c : Block, (fullBlocks data (data.length / 16))[i]? = some c ∧ BlockAt data i c :=
  (fullBlocks_spec data _ (Nat.mul_div_le _ _)).2 i h

/-- The decrypt-side chunker takes all of a frame apart again. -/
theorem fullBlocks_of_frame (bs : List Block) : fullBlocks (frame bs) ((frame bs).length / 16) = bs := by
  rw [frame_length, Nat.mul_div_cancel_left _ (by decide), fullBlocks_frame]

theorem frame_aligned (bs : List Block) : (frame bs).length % 16 = 0 := by
  rw [frame_length, Nat.mul_mod_right]

/-- The one strip both decrypt commands end in (R119). -/
theorem strip16_stripped (b : Bytes) : Stripped 16 b (strip16 b) := stripLenient_stripped (by decide) b

/-! ### ECB -/

theorem ecbEncrypt_length (enc : Block → Block) (data : Bytes) :
    (ecbEncrypt enc data).length = 16 * (data.length / 16 + 1) := by
  rw [ecbEncrypt, frame_length, List.length_map, (chunks_spec data).1]

/-- Settles O14: the frame of the encrypted chunks has each of them at its place. -/
theorem ecbEncResult : Obligations.EcbEncResult := by
  intro key data s
  refine ⟨exec_ecbEnc_wrongKey data s, ?_⟩
  rintro k rfl
  refine ⟨_, exec_ecbEnc_key k data s, ecbEncrypt_length _ data, fun i hi => ?_⟩
  obtain ⟨p, hp, hat⟩ := chunks_blockAt hi
  exact ⟨p, hat, frame_blockAt (by rw [List.getElem?_map, hp, Option.map_some])⟩

/-- Settles O15: the checks in their order, then the strip of the frame of the decrypted blocks. The IV that
`misalignedCiphertextTraps` asks for is of no account to `ECB_DEC`. -/
theorem ecbDecResult : Obligations.EcbDecResult := by
  intro key data s
  refine ⟨exec_ecbDec_wrongKey data s, ?_⟩
  rintro k rfl
  refine ⟨fun hmisaligned => (misalignedCiphertextTraps k k data s hmisaligned).1, fun haligned => ?_⟩
  refine ⟨frame ((fullBlocks data (data.length / 16)).map (Config.ciphDec k)), _, exec_ecbDec_aligned k data s haligned,
    ?_, fun i hi => ?_, strip16_stripped _⟩
  · rw [frame_length, List.length_map, (fullBlocks_aligned haligned).1]
  · obtain ⟨c, hc, hat⟩ := fullBlocks_blockAt hi
    exact ⟨c, hat, frame_blockAt (by rw [List.getElem?_map, hc, Option.map_some])⟩

/-! ### CBC

The chaining value of block `i` is entry `i` of the list `iv :: C_0 :: C_1 :: ...` (R116). -/

/-- Each ciphertext block is made of its plaintext block and its chaining value (R117). -/
theorem cbcEncBlocks_eq_zipWith (enc : Block → Block) (iv : Block) (ps : List Block) :
    cbcEncBlocks enc iv ps = List.zipWith (fun p chain => enc (xorN p chain)) ps (iv :: cbcEncBlocks enc iv ps) := by
  induction ps generalizing iv with
  | nil => rfl
  | cons p ps ih => exact congrArg (enc (xorN p iv) :: ·) (ih (enc (xorN p iv)))

/-- Each plaintext block is made of its ciphertext block and its chaining value (R118). -/
theorem cbcDecBlocks_eq_zipWith (dec : Block → Block) (iv : Block) (cs : List Block) :
    cbcDecBlocks dec iv cs = List.zipWith (fun c chain => xorN (dec c) chain) cs (iv :: cs) := by
  induction cs generalizing iv with
  | nil => rfl
  | cons c cs ih => exact congrArg (xorN (dec c) iv :: ·) (ih c)

@[simp] theorem cbcEncBlocks_length (enc : Block → Block) (iv : Block) (ps : List Block) :
    (cbcEncBlocks enc iv ps).length = ps.length := by
  induction ps generalizing iv with
  | nil => rfl
  | cons p ps ih => exact congrArg (· + 1) (ih (enc (xorN p iv)))

@[simp] theorem cbcDecBlocks_length (dec : Block → Block) (iv : Block) (cs : List Block) :
    (cbcDecBlocks dec iv cs).length = cs.length := by
  rw [cbcDecBlocks_eq_zipWith, List.length_zipWith, List.length_cons, Nat.min_eq_left (Nat.le_succ _)]

/-- A block of a chain has a chaining value: the IV for block 0, the ciphertext block before it for every other. -/
theorem exists_chain (iv : Block) {cs : List Block} {i : Nat} (h : i < cs.length) :
    ∃ chain : Block, (iv :: cs)[i]? = some chain ∧
      (i = 0 → chain = iv) ∧ ∀ j, i = j + 1 → BlockAt (frame cs) j chain := by
  have hget := List.getElem?_eq_getElem (l := iv :: cs) (i := i) (by rw [List.length_cons]; omega)
  refine ⟨_, hget, ?_, ?_⟩
  · rintro rfl
    rfl
  · rintro j rfl
    exact frame_blockAt hget

theorem cbcEncrypt_length (enc : Block → Block) (iv : Block) (data : Bytes) :
    (cbcEncrypt enc iv data).length = 16 * (data.length / 16 + 1) := by
  rw [cbcEncrypt, frame_length, cbcEncBlocks_length, (chunks_spec data).1]

/-- Settles O16: the chain block by block. -/
theorem cbcEncResult : Obligations.CbcEncResult := by
  intro key iv data s
  refine ⟨exec_cbcEnc_wrongKey iv data s, ?_⟩
  rintro k rfl
  refine ⟨_, exec_cbcEnc_key k iv data s, cbcEncrypt_length _ iv data, fun i hi => ?_⟩
  obtain ⟨p, hp, hat⟩ := chunks_blockAt hi
  obtain ⟨chain, hchain, hfirst, hlater⟩ := exists_chain iv (i := i)
    (cs := cbcEncBlocks (Config.ciphEnc k) iv (chunks data))
    (by rw [cbcEncBlocks_length]; exact (List.getElem?_eq_some_iff.1 hp).1)
  refine ⟨p, chain, xorN p chain, hat, hfirst, hlater, fun j => xorN_getElem p chain j j.isLt, frame_blockAt ?_⟩
  rw [cbcEncBlocks_eq_zipWith, List.getElem?_zipWith_eq_some]
  exact ⟨p, chain, hp, hchain, rfl⟩

/-- Settles O17: the checks in their order, then the strip of the frame of the chain undone. -/
theorem cbcDecResult : Obligations.CbcDecResult := by
  intro key iv data s
  refine ⟨exec_cbcDec_wrongKey iv data s, ?_⟩
  rintro k rfl
  refine ⟨fun hmisaligned => (misalignedCiphertextTraps k iv data s hmisaligned).2, fun haligned => ?_⟩
  obtain ⟨hlen, hframe⟩ := fullBlocks_aligned haligned
  refine ⟨frame (cbcDecBlocks (Config.ciphDec k) iv (fullBlocks data (data.length / 16))), _,
    exec_cbcDec_aligned k iv data s haligned, ?_, fun i hi => ?_, strip16_stripped _⟩
  · rw [frame_length, cbcDecBlocks_length, hlen]
  · obtain ⟨c, hc, hat⟩ := fullBlocks_blockAt hi
    obtain ⟨chain, hchain, hfirst, hlater⟩ := exists_chain iv (List.getElem?_eq_some_iff.1 hc).1
    rw [hframe] at hlater
    refine ⟨c, chain, xorN (Config.ciphDec k c) chain, hat, hfirst, hlater,
      fun j => xorN_getElem _ chain j j.isLt, frame_blockAt ?_⟩
    rw [cbcDecBlocks_eq_zipWith, List.getElem?_zipWith_eq_some]
    exact ⟨c, chain, hc, hchain, rfl⟩

/-! ### Round trips

What decryption gives before its strip is the chunks themselves where the cipher keeps its law. Where a message of one
block comes back, that block came back through the cipher: the strip only takes bytes off the end. -/

section
variable {enc dec : Block → Block}

theorem ecbDecrypt_ecbEncrypt (m : Bytes) :
    ecbDecrypt dec (ecbEncrypt enc m) = strip16 (frame ((chunks m).map fun p => dec (enc p))) := by
  rw [ecbDecrypt, ecbEncrypt, fullBlocks_of_frame, List.map_map]
  rfl

theorem cbcDecrypt_cbcEncrypt (iv : Block) (m : Bytes) :
    cbcDecrypt dec iv (cbcEncrypt enc iv m) = strip16 (frame (cbcDecBlocks dec iv (cbcEncBlocks enc iv (chunks m)))) := by
  rw [cbcDecrypt, cbcEncrypt, fullBlocks_of_frame]

theorem cbcDecBlocks_cbcEncBlocks (h : CiphLaw enc dec) (iv : Block) (ps : List Block) :
    cbcDecBlocks dec iv (cbcEncBlocks enc iv ps) = ps := by
  induction ps generalizing iv with
  | nil => rfl
  | cons p ps ih => rw [cbcEncBlocks, cbcDecBlocks, h, xorN_xorN, ih]

/-- The padded data ends in valid padding, so the strip gives the data (R120). -/
theorem strip16_frame_chunks (m : Bytes) : strip16 (frame (chunks m)) = m := by
  rw [(chunks_spec m).2]
  exact stripLenient_of_paddedWith (by decide) (v := 16 - m.length % 16) ⟨by omega, by omega, rfl⟩

theorem stripLenient_prefix (n : Nat) (b : Bytes) : stripLenient n b <+: b := by
  unfold stripLenient
  split
  · exact List.take_prefix _ _
  · exact List.prefix_rfl

/-- Where a frame strips to a single block, it begins with that block. -/
theorem head_of_strip16_frame {x b : Block} {bs : List Block} (h : strip16 (frame (x :: bs)) = b.toList) : x = b := by
  have hb : b.toList <+: x.toList ++ frame bs := h ▸ stripLenient_prefix 16 (frame (x :: bs))
  have hlen : b.toList.length = x.toList.length := by rw [b.length_toList, x.length_toList]
  have hpre := List.prefix_of_prefix_length_le hb (List.prefix_append _ _) hlen.le
  exact (Vector.toList_inj.1 (hpre.eq_of_length hlen)).symm

/-- The first chunk of a message of one block is that block. -/
theorem chunks_toList (b : Block) : ∃ bs, chunks b.toList = b :: bs := by
  obtain ⟨hlen, hframe⟩ := chunks_spec b.toList
  obtain ⟨c, bs, hchunks⟩ := List.exists_cons_of_length_eq_add_one hlen
  rw [hchunks, frame_cons, paddedData] at hframe
  have hc := (List.append_inj hframe (by rw [c.length_toList, b.length_toList])).1
  exact ⟨bs, by rw [hchunks, Vector.toList_inj.1 hc]⟩

/-- R120 and its converse in ECB. -/
theorem ciphLaw_iff_ecb_roundTrip : CiphLaw enc dec ↔ ∀ m, ecbDecrypt dec (ecbEncrypt enc m) = m := by
  constructor
  · intro hlaw m
    simp only [ecbDecrypt_ecbEncrypt, hlaw _, List.map_id', strip16_frame_chunks]
  · intro h b
    have hb := h b.toList
    obtain ⟨bs, hchunks⟩ := chunks_toList b
    rw [ecbDecrypt_ecbEncrypt, hchunks, List.map_cons] at hb
    exact head_of_strip16_frame hb

/-- R120 and its converse in CBC, with any IV. The message `b xor iv` has the cipher encrypt `b`. -/
theorem ciphLaw_iff_cbc_roundTrip (iv : Block) : CiphLaw enc dec ↔ ∀ m, cbcDecrypt dec iv (cbcEncrypt enc iv m) = m := by
  constructor
  · intro hlaw m
    rw [cbcDecrypt_cbcEncrypt, cbcDecBlocks_cbcEncBlocks hlaw, strip16_frame_chunks]
  · intro h b
    have hb := h (xorN b iv).toList
    obtain ⟨bs, hchunks⟩ := chunks_toList (xorN b iv)
    rw [cbcDecrypt_cbcEncrypt, hchunks, cbcEncBlocks, cbcDecBlocks, xorN_xorN] at hb
    have hhead : xorN (dec (enc b)) iv = xorN b iv := head_of_strip16_frame hb
    rw [← xorN_xorN (dec (enc b)) iv, hhead, xorN_xorN]

end

/-- Settles O18: the two equivalences, and the commands on them. -/
theorem ecbAndCbcRoundTrip : Obligations.EcbAndCbcRoundTrip := by
  refine ⟨fun enc dec iv => ⟨ciphLaw_iff_ecb_roundTrip, ciphLaw_iff_cbc_roundTrip iv⟩, fun k iv m s s' => ?_⟩
  refine ⟨_, _, _, _, ⟨exec_ecbEnc_key k m s, rfl⟩, ⟨exec_ecbDec_aligned k _ s' (frame_aligned _), rfl⟩,
    ⟨exec_cbcEnc_key k iv m s, rfl⟩, ⟨exec_cbcDec_aligned k iv _ s' (frame_aligned _), rfl⟩, fun hlaw => ?_⟩
  exact ⟨ciphLaw_iff_ecb_roundTrip.1 hlaw m, (ciphLaw_iff_cbc_roundTrip iv).1 hlaw m⟩

/-! ### CTR -/

/-- Byte `t` of the counter block is a digit of the counter in base 256: the wrap at `2^64` touches none of its eight
(R122, R127). -/
theorem le64bytes_ofNat (i t : Nat) (h : t < 8) :
    (le64bytes (BitVec.ofNat 64 i))[t] = BitVec.ofNat 8 (i / 256 ^ t) := by
  refine BitVec.eq_of_toNat_eq ?_
  rw [le64bytes_getElem, toNat_extractLsb'_byte, BitVec.toNat_ofNat, BitVec.toNat_ofNat, Nat.pow_mul]
  have hsplit : 2 ^ 64 = 256 ^ t * (256 * 256 ^ (7 - t)) := by
    rw [← Nat.pow_succ', ← Nat.pow_add, show t + (7 - t + 1) = 8 by omega]
    decide
  rw [hsplit, Nat.mod_mul_right_div_self, Nat.mod_mul_right_mod]

/-- The nonce bytes, then the counter bytes, fix the cipher input (20_memory.md R56). -/
theorem eq_ctrBlock {nonce : BytesN 8} {i : Nat} {block : Block}
    (h : ∀ t : Fin 8, block[t.val] = nonce[t] ∧ block[8 + t.val] = BitVec.ofNat 8 (i / 256 ^ t.val)) :
    block = ctrBlock nonce i := by
  refine Vector.ext fun j hj => ?_
  rcases Nat.lt_or_ge j 8 with hlt | hge
  · rw [(h ⟨j, hlt⟩).1]
    exact (Vector.getElem_append_left hlt).symm
  · obtain ⟨t, rfl⟩ := Nat.exists_eq_add_of_le hge
    have ht : t < 8 := by omega
    have hcounter : (ctrBlock nonce i)[8 + t] = (le64bytes (BitVec.ofNat 64 i))[t] :=
      (Vector.getElem_append_right hj hge).trans (by simp only [Nat.add_sub_cancel_left])
    rw [(h ⟨t, ht⟩).2, hcounter, le64bytes_ofNat i t ht]

theorem ctrTransform_getElem (enc : Block → Block) (nonce : BytesN 8) (data : Bytes) {j : Nat}
    (h : j < (ctrTransform enc nonce data).length) :
    (ctrTransform enc nonce data)[j] = data[j]'(List.length_mapIdx ▸ h) ^^^
      (keystream enc nonce (j / 16))[j % 16]'(Nat.mod_lt j (by decide)) :=
  List.getElem_mapIdx

@[simp] theorem ctrTransform_length (enc : Block → Block) (nonce : BytesN 8) (data : Bytes) :
    (ctrTransform enc nonce data).length = data.length :=
  List.length_mapIdx

/-- Settles O19: the block the statement describes is the cipher input of the byte's keystream block. -/
theorem ctrResult : Obligations.CtrResult := by
  intro key nonce data s
  refine ⟨exec_ctrXform_wrongKey nonce data s, ?_⟩
  rintro k rfl
  refine ⟨_, exec_ctrXform_key k nonce data s, ctrTransform_length _ nonce data, fun j block hj hblock => ?_⟩
  rw [List.getElem?_eq_getElem (by rwa [ctrTransform_length]), ctrTransform_getElem, eq_ctrBlock hblock,
    List.getD_eq_getElem _ _ hj]
  rfl

/-- The keystream byte at a position depends on no data byte, so a second XOR with it undoes the first (R126). -/
theorem ctrTransform_ctrTransform (enc : Block → Block) (nonce : BytesN 8) (data : Bytes) :
    ctrTransform enc nonce (ctrTransform enc nonce data) = data := by
  refine List.ext_getElem (by simp) fun j _ _ => ?_
  rw [ctrTransform_getElem, ctrTransform_getElem, BitVec.xor_assoc, BitVec.xor_self, BitVec.xor_zero]

/-- Settles O20: the second command is given what the first one answers. -/
theorem ctrSelfInverse : Obligations.CtrSelfInverse := by
  intro k nonce m s s'
  refine ⟨_, exec_ctrXform_key k nonce m s, ?_⟩
  rw [exec_ctrXform_key, ctrTransform_ctrTransform]

end Sys2Proof.Machine

/-! The hash units (spec 42_hash_engine.md R140 to R161). A unit's history is said by one relation,
`HasHashed alg h m u`: the unit `u` has taken in the message `m` from the chaining words `h`. An update lengthens the
message by its data and a finish by its padding. The message fixes the cursor and the chaining words, whatever stale
bytes the buffer holds, and a message of whole blocks can be left behind for the chaining words it leads to. The commands
of both units follow from these rules. -/

namespace Sys2Proof.Machine

open Sys2Proof.Safety

theorem HashPhase.live_iff {p : HashPhase} : p.live = true ↔ p = .init ∨ p = .updating := by
  cases p <;> decide

theorem HashPhase.not_live_iff {p : HashPhase} : p.live = false ↔ p = .idle ∨ p = .finalized := by
  cases p <;> decide

/-! ### What each command answers -/

section
variable {s : State}

theorem exec_sha1Update_of_not_live (data : Bytes) (h : s.sha1.phase.live = false) :
    exec (.sha1Update data) s = .next (traps s .badPhase 6) :=
  if_neg (by rw [h]; decide)

theorem exec_sha1Finish_of_not_live (h : s.sha1.phase.live = false) :
    exec .sha1Finish s = .next (traps s .badPhase 6) :=
  if_neg (by rw [h]; decide)

theorem exec_md4Update_of_not_live (data : Bytes) (h : s.md4.phase.live = false) :
    exec (.md4Update data) s = .next (traps s .badPhase 6) :=
  if_neg (by rw [h]; decide)

theorem exec_md4Finish_of_not_live (h : s.md4.phase.live = false) :
    exec .md4Finish s = .next (traps s .badPhase 6) :=
  if_neg (by rw [h]; decide)

theorem exec_sha1Update_of_live {data : Bytes} {u : HashUnit 5} (hlive : s.sha1.phase.live = true)
    (hu : hashUpdate sha1Alg s.sha1 data = .ok u) :
    exec (.sha1Update data) s = .next ((s.setSha1 u).ok .none) := by
  simp only [exec, execSha1Update, hlive, hu, if_true]

theorem exec_sha1Finish_of_live {d : Bytes} (hlive : s.sha1.phase.live = true)
    (hd : hashFinish sha1Alg s.sha1 = .ok d) :
    exec .sha1Finish s = .next ((s.setSha1 (finalizedUnit 5 s.freeCount)).bumpFree.ok (.bytes d)) := by
  simp only [exec, execSha1Finish, hlive, hd, if_true]

theorem exec_md4Update_of_live {data : Bytes} {u : HashUnit 4} (hlive : s.md4.phase.live = true)
    (hu : hashUpdate md4Alg s.md4 data = .ok u) :
    exec (.md4Update data) s = .next ((s.setMd4 u).ok .none) := by
  simp only [exec, execMd4Update, hlive, hu, if_true]

theorem exec_md4Finish_of_live {d : Bytes} (hlive : s.md4.phase.live = true)
    (hd : hashFinish md4Alg s.md4 = .ok d) :
    exec .md4Finish s = .next ((s.setMd4 (finalizedUnit 4 s.freeCount)).bumpFree.ok (.bytes d)) := by
  simp only [exec, execMd4Finish, hlive, hd, if_true]

end

/-! ### The message behind a unit -/

section
variable {nw : Nat} (alg : HashAlg nw)

/-- The unit has taken in the message `m` from the chaining words `h`: its whole blocks are compressed in order, and the
buffer holds the rest (R143, R145). -/
def HasHashed (h : Vector Word nw) (m : Bytes) (u : HashUnit nw) : Prop :=
  ∃ (blocks : List (BytesN 64)) (rest : Bytes), m = joined blocks ++ rest ∧ Buffered u rest ∧
    u.h = blocks.foldl alg.compress h

theorem hasHashed_of_buffered {u : HashUnit nw} {held : Bytes} (hb : Buffered u held) : HasHashed alg u.h held u :=
  ⟨[], held, rfl, hb, rfl⟩

variable {alg} {h : Vector Word nw} {m : Bytes} {u v : HashUnit nw}

theorem joined_append {k : Nat} (as bs : List (BytesN k)) : joined (as ++ bs) = joined as ++ joined bs :=
  List.flatMap_append

theorem ne_joined_cons_append {k : Nat} {x : Bytes} (hx : x.length < k) (b : BytesN k) (bs : List (BytesN k))
    (y : Bytes) : x ≠ joined (b :: bs) ++ y := by
  rintro rfl
  rw [joined_cons, List.append_assoc, List.length_append, b.length_toList] at hx
  omega

/-- A byte string is cut into blocks and a shorter rest in one way. -/
theorem joined_append_inj {k : Nat} {as bs : List (BytesN k)} {x y : Bytes} (hx : x.length < k) (hy : y.length < k)
    (heq : joined as ++ x = joined bs ++ y) : as = bs ∧ x = y := by
  induction as generalizing bs with
  | nil =>
    cases bs with
    | nil => exact ⟨rfl, heq⟩
    | cons b bs => exact absurd heq (ne_joined_cons_append hx b bs y)
  | cons a as ih =>
    cases bs with
    | nil => exact absurd heq.symm (ne_joined_cons_append hy a as x)
    | cons b bs =>
      rw [joined_cons, joined_cons, List.append_assoc, List.append_assoc] at heq
      obtain ⟨hab, hrest⟩ := List.append_inj heq (by rw [a.length_toList, b.length_toList])
      obtain ⟨hblocks, hxy⟩ := ih hrest
      exact ⟨by rw [Vector.toList_inj.1 hab, hblocks], hxy⟩

/-- The cursor counts the message modulo 64. -/
theorem HasHashed.fill (hm : HasHashed alg h m u) : u.fill = m.length % 64 := by
  obtain ⟨blocks, rest, rfl, ⟨hfill, hlt, -⟩, -⟩ := hm
  rw [List.length_append, joined_length, Nat.mul_add_mod, Nat.mod_eq_of_lt hlt, hfill]

/-- The message fixes the chaining words. -/
theorem HasHashed.unique (hu : HasHashed alg h m u) (hv : HasHashed alg h m v) : u.h = v.h := by
  obtain ⟨as, x, rfl, ⟨-, hx, -⟩, hh⟩ := hu
  obtain ⟨bs, y, heq, ⟨-, hy, -⟩, hh'⟩ := hv
  rw [hh, hh', (joined_append_inj hx hy heq).1]

/-- A message that ends with its block is whole blocks. -/
theorem HasHashed.whole (hm : HasHashed alg h m u) (hfill : u.fill = 0) :
    ∃ blocks : List (BytesN 64), m = joined blocks ∧ u.h = blocks.foldl alg.compress h := by
  obtain ⟨blocks, rest, rfl, ⟨hlen, -, -⟩, hh⟩ := hm
  obtain rfl : rest = [] := List.eq_nil_of_length_eq_zero (hlen.symm.trans hfill)
  exact ⟨blocks, List.append_nil _, hh⟩

/-- What follows a message of whole blocks may be hashed from the chaining words it leaves (R160). -/
theorem HasHashed.trans {x : Bytes} (hu : HasHashed alg h m u) (hfill : u.fill = 0) (hv : HasHashed alg u.h x v) :
    HasHashed alg h (m ++ x) v := by
  obtain ⟨as, rfl, hh⟩ := hu.whole hfill
  obtain ⟨bs, rest, rfl, hb, hh'⟩ := hv
  exact ⟨as ++ bs, rest, by rw [joined_append, List.append_assoc], hb, by rw [hh', hh, List.foldl_append]⟩

theorem HasHashed.pushAll (hm : HasHashed alg h m u) (data : Bytes) :
    ∃ v, pushAll alg u data = .ok v ∧ HasHashed alg h (m ++ data) v ∧ v.total = u.total ∧ v.phase = u.phase := by
  obtain ⟨as, held, rfl, hb, hh⟩ := hm
  obtain ⟨v, rest, bs, hpush, hcut, hrest, hh', htotal, hphase⟩ := pushAll_buffered alg hb data
  refine ⟨v, hpush, ⟨as ++ bs, rest, ?_, hrest, by rw [hh', hh, List.foldl_append]⟩, htotal, hphase⟩
  rw [List.append_assoc, hcut, joined_append, List.append_assoc]

/-! ### Update -/

theorem hashUpdate_of_pushAll {data : Bytes} (hpush : pushAll alg u data = .ok v) :
    hashUpdate alg u data = .ok { v with total := v.total + BitVec.ofNat 64 data.length, phase := .updating } := by
  simp only [hashUpdate, hpush]

theorem hashUpdate_phase {data : Bytes} (hupdate : hashUpdate alg u data = .ok v) : v.phase = .updating := by
  unfold hashUpdate at hupdate
  split at hupdate
  · cases hupdate
  · cases hupdate; rfl

theorem HasHashed.hashUpdate (hm : HasHashed alg h m u) (data : Bytes) :
    ∃ v, hashUpdate alg u data = .ok v ∧ HasHashed alg h (m ++ data) v ∧
      v.total = u.total + BitVec.ofNat 64 data.length := by
  obtain ⟨v, hpush, hv, htotal, -⟩ := hm.pushAll data
  exact ⟨_, hashUpdate_of_pushAll hpush, hv, by rw [htotal]⟩

theorem hashUpdate_absorbs (hok : HashOk u) (hlive : u.phase.live = true) (data : Bytes) :
    ∃ v, hashUpdate alg u data = .ok v ∧ Absorbs alg u v data := by
  obtain ⟨held, hb⟩ := exists_buffered hok hlive
  obtain ⟨v, hpush, ⟨blocks, rest, hcut, hrest, hh⟩, htotal, -⟩ := (hasHashed_of_buffered alg hb).pushAll data
  have hfill : u.fill < bufSize := hb.1 ▸ hb.2.1
  exact ⟨_, hashUpdate_of_pushAll hpush, ⟨held, rest, blocks, hb, hcut, hrest, hh⟩, by rw [htotal], rfl,
    fun a ha => pushAll_frame alg hpush hfill ha⟩

/-- The second update overwrites the first one's phase and adds to its total, which no push looks at (R161). -/
theorem hashUpdate_append (hok : HashOk u) (hlive : u.phase.live = true) (a b : Bytes) :
    ∃ v w, hashUpdate alg u a = .ok v ∧ hashUpdate alg v b = .ok w ∧ hashUpdate alg u (a ++ b) = .ok w := by
  obtain ⟨held, hb⟩ := exists_buffered hok hlive
  obtain ⟨q, hq, hqm, -⟩ := (hasHashed_of_buffered alg hb).pushAll a
  have hv := hashUpdate_of_pushAll hq
  obtain ⟨r, hr, -, htotal, -⟩ := HasHashed.pushAll (u := { q with total := _, phase := .updating }) hqm b
  have hpush : pushAll alg u (a ++ b) = .ok { r with total := q.total, phase := q.phase } := by
    rw [pushAll_append, hq]
    exact pushAll_setTotal alg hr q.total q.phase
  refine ⟨_, _, hv, hashUpdate_of_pushAll hr, ?_⟩
  rw [hashUpdate_of_pushAll hpush, List.length_append, BitVec.ofNat_add, htotal, BitVec.add_assoc]

/-! ### Finish -/

/-- What a finish pushes for a cursor and a total: the marker, the zero fill and the length field (R147). -/
def finishPadding (alg : HashAlg nw) (fill : Nat) (total : DWord) : Bytes :=
  [0x80] ++ List.replicate ((119 - fill) % 64) 0 ++ (alg.lenBytes (total * 8)).toList

/-- Where the cursor counts the total modulo 64, the finish pushes the padding bytes for the total (R149). -/
theorem padBytes_eq_finishPadding (total : DWord) : padBytes alg total = finishPadding alg (total.toNat % 64) total :=
  rfl

theorem finishPadding_length (fill : Nat) (total : DWord) :
    (finishPadding alg fill total).length = 9 + (119 - fill) % 64 := by
  simp only [finishPadding, List.length_append, List.length_singleton, List.length_replicate, Vector.length_toList]
  omega

theorem HasHashed.pushPadding (hm : HasHashed alg h m u) :
    Machine.pushPadding alg u = Machine.pushAll alg u (finishPadding alg u.fill u.total) := by
  obtain ⟨-, held, -, hb, -⟩ := hm
  exact pushPadding_eq alg hb

/-- A finish takes in the padding, which ends the last block, and gives the chaining words it leaves (R147). -/
theorem HasHashed.hashFinish (hm : HasHashed alg h m u) :
    ∃ v, Machine.pushAll alg u (finishPadding alg u.fill u.total) = .ok v ∧
      hashFinish alg u = .ok (wordsDigest alg v.h) ∧ v.fill = 0 ∧
      HasHashed alg h (m ++ finishPadding alg u.fill u.total) v := by
  obtain ⟨v, hpush, hv, -⟩ := hm.pushAll (finishPadding alg u.fill u.total)
  refine ⟨v, hpush, ?_, ?_, hv⟩
  · simp only [Machine.hashFinish, hm.pushPadding, hpush]
  · rw [hv.fill, List.length_append, finishPadding_length, hm.fill]
    omega

theorem wordsDigest_eq_joined (w : Vector Word nw) : wordsDigest alg w = joined (w.toList.map alg.wordBytes) :=
  (List.flatMap_map _ _ _).symm

theorem hashFinish_digests (hok : HashOk u) (hlive : u.phase.live = true) :
    ∃ d, hashFinish alg u = .ok d ∧ d.length = 4 * nw ∧ Digests alg u d := by
  obtain ⟨held, hb⟩ := exists_buffered hok hlive
  obtain ⟨v, -, hfinish, hfill, hv⟩ := (hasHashed_of_buffered alg hb).hashFinish
  obtain ⟨blocks, hcut, hh⟩ := hv.whole hfill
  refine ⟨_, hfinish, wordsDigest_length alg v.h, held, blocks, hb, ?_, by rw [wordsDigest_eq_joined, hh]⟩
  rw [← hcut, finishPadding, List.append_assoc, List.append_assoc, List.append_assoc]

/-- On a cursor that counts the total the digest is that of the chaining words an update by the padding bytes leaves
(R149). -/
theorem hashFinish_eq_update_padBytes (hok : HashOk u) (hlive : u.phase.live = true)
    (hfill : u.fill = u.total.toNat % 64) : ∃ v, hashUpdate alg u (padBytes alg u.total) = .ok v ∧
      hashFinish alg u = .ok (joined (v.h.toList.map alg.wordBytes)) := by
  obtain ⟨held, hb⟩ := exists_buffered hok hlive
  obtain ⟨v, hpush, hfinish, -⟩ := (hasHashed_of_buffered alg hb).hashFinish
  rw [hfill, ← padBytes_eq_finishPadding] at hpush
  exact ⟨_, hashUpdate_of_pushAll hpush, by rw [hfinish, wordsDigest_eq_joined]⟩

/-! ### Length extension -/

/-- The digest of an update and a finish, one after the other. -/
def hashDigest (alg : HashAlg nw) (u : HashUnit nw) (data : Bytes) : Except Fault Bytes :=
  (hashUpdate alg u data).bind (hashFinish alg)

theorem hashDigest_eq_ok {data d : Bytes} (hd : hashDigest alg u data = .ok d) :
    ∃ v, hashUpdate alg u data = .ok v ∧ hashFinish alg v = .ok d := by
  unfold hashDigest at hd
  cases hupdate : hashUpdate alg u data with
  | error e => rw [hupdate] at hd; cases hd
  | ok v => rw [hupdate] at hd; exact ⟨v, rfl, hd⟩

theorem padBytes_ofNat (n : Nat) :
    padBytes alg (BitVec.ofNat 64 n) = finishPadding alg (n % 64) (BitVec.ofNat 64 n) := by
  rw [padBytes_eq_finishPadding, BitVec.toNat_ofNat, Nat.mod_mod_of_dvd n (by decide)]

/-- From an empty buffer and a total of whole blocks the digest of `x` is that of `x` and the padding bytes for the new
total, which end on a block. -/
theorem hashDigest_of_aligned {n : Nat} (hfill : u.fill = 0) (htotal : u.total = BitVec.ofNat 64 n) (hn : n % 64 = 0)
    (x : Bytes) : ∃ v, hashDigest alg u x = .ok (wordsDigest alg v.h) ∧ v.fill = 0 ∧
      HasHashed alg u.h (x ++ padBytes alg (BitVec.ofNat 64 (n + x.length))) v := by
  obtain ⟨w, hupdate, hw, hwtotal⟩ := (hasHashed_of_buffered alg (buffered_nil hfill)).hashUpdate x
  obtain ⟨v, -, hfinish, hv0, hv⟩ := hw.hashFinish
  have hfillw : w.fill = (n + x.length) % 64 := by rw [hw.fill, List.nil_append]; omega
  rw [hfillw, hwtotal, htotal, ← BitVec.ofNat_add, ← padBytes_ofNat] at hv
  exact ⟨v, by rw [hashDigest, hupdate]; exact hfinish, hv0, hv⟩

/-- The digest of chaining words, as an operand of its own length. -/
def digestBytes (alg : HashAlg nw) (w : Vector Word nw) : BytesN (4 * nw) :=
  (w.flatMap alg.wordBytes).cast (Nat.mul_comm nw 4)

theorem digestBytes_toList (w : Vector Word nw) : (digestBytes alg w).toList = wordsDigest alg w := by
  simp [digestBytes, wordsDigest, Vector.flatMap, Vector.toList, Array.flatMap_def, List.flatMap_def, Function.comp_def]

/-- A digest stands for the words it was made of (R144, R147). -/
theorem digestWords_digestBytes (hinv : ∀ w, alg.bytesWord (alg.wordBytes w) = w) (w : Vector Word nw) :
    digestWords alg (digestBytes alg w) = w := by
  refine Vector.ext fun i hi => ?_
  have hbytes : bytes4At (digestBytes alg w) ⟨i, hi⟩ = alg.wordBytes w[i] := by
    refine Vector.ext fun j hj => ?_
    simp only [bytes4At_getElem, digestBytes, Vector.getElem_cast, Vector.getElem_flatMap]
    simp only [show (4 * i + j) / 4 = i by omega, show (4 * i + j) % 4 = j by omega]
  rw [digestWords_getElem, hbytes, hinv]

/-- R160 for any unit: from the digest of `p` and the length of `p` with its padding the unit goes on as if it had
taken in both, so that with `x` after them it ends on the same words and the same length field. -/
theorem hashDigest_lengthExtension (hinv : ∀ w, alg.bytesWord (alg.wordBytes w) = w) (u v : HashUnit nw)
    (p x : Bytes) {pad : Bytes} (hpad : pad = padBytes alg (BitVec.ofNat 64 p.length)) :
    ∃ (d : BytesN (4 * nw)) (e : Bytes), hashDigest alg (hashInit alg u) p = .ok d.toList ∧
      hashDigest alg (hashInitState alg v d (BitVec.ofNat 64 (p.length + pad.length))) x = .ok e ∧
      hashDigest alg (hashInit alg u) (p ++ pad ++ x) = .ok e := by
  obtain ⟨u1, hd, hu1, hp⟩ := hashDigest_of_aligned (u := hashInit alg u) (n := 0) rfl rfl rfl p
  rw [Nat.zero_add, ← hpad] at hp
  have haligned : (p.length + pad.length) % 64 = 0 := by rw [← List.length_append, ← hp.fill, hu1]
  obtain ⟨u2, he, -, hx⟩ := hashDigest_of_aligned
    (u := hashInitState alg v (digestBytes alg u1.h) (BitVec.ofNat 64 (p.length + pad.length))) rfl rfl haligned x
  obtain ⟨u3, hdirect, -, hall⟩ := hashDigest_of_aligned (u := hashInit alg u) (n := 0) rfl rfl rfl (p ++ pad ++ x)
  have hwords : (hashInitState alg v (digestBytes alg u1.h) (BitVec.ofNat 64 (p.length + pad.length))).h = u1.h :=
    digestWords_digestBytes hinv u1.h
  have hsame : u2.h = u3.h := by
    refine (hp.trans hu1 (hwords ▸ hx)).unique (v := u3) ?_
    rwa [Nat.zero_add, List.length_append, List.length_append, List.append_assoc (p ++ pad)] at hall
  exact ⟨digestBytes alg u1.h, wordsDigest alg u2.h, by rw [hd, digestBytes_toList], he, by rw [hdirect, hsame]⟩

end

/-! ### The start of a context -/

/-- Settles O23: the rule writes each register as the statement names it. -/
theorem sha1InitResult : Obligations.Sha1InitResult := fun _ => rfl

/-- Settles O24: the rule writes each register as the statement names it. -/
theorem md4InitResult : Obligations.Md4InitResult := fun _ => rfl

/-- Settles O25: word `i` is the big-endian number of its four bytes of the digest. -/
theorem sha1InitStateResult : Obligations.Sha1InitStateResult := by
  intro digest consumed s
  refine ⟨digestWords sha1Alg digest, fun i => ?_, rfl⟩
  have hword : (digestWords sha1Alg digest)[i] = be32 (bytes4At digest i) :=
    digestWords_getElem sha1Alg digest i i.isLt
  rw [hword, be32_toNat]
  simp only [bytes4At_getElem, Nat.add_zero]

/-- Settles O26: word `i` is the little-endian number of its four bytes of the digest. -/
theorem md4InitStateResult : Obligations.Md4InitStateResult := by
  intro digest consumed s
  refine ⟨digestWords md4Alg digest, fun i => ?_, rfl⟩
  have hword : (digestWords md4Alg digest)[i] = le32 (bytes4At digest i) :=
    digestWords_getElem md4Alg digest i i.isLt
  rw [hword, le32_toNat]
  simp only [bytes4At_getElem, Nat.add_zero]

/-! ### Update and finish -/

/-- Settles O27: the bytes held are the message so far, and the update lengthens it by the data. -/
theorem sha1UpdateAbsorbsData : Obligations.Sha1UpdateAbsorbsData := by
  intro data s
  refine ⟨fun hdead => exec_sha1Update_of_not_live data (HashPhase.not_live_iff.2 hdead), fun hok hphase => ?_⟩
  have hlive := HashPhase.live_iff.2 hphase
  obtain ⟨u, hupdate, habsorbs⟩ := hashUpdate_absorbs hok hlive data
  exact ⟨u, exec_sha1Update_of_live hlive hupdate, habsorbs⟩

/-- Settles O28, as for SHA-1. -/
theorem md4UpdateAbsorbsData : Obligations.Md4UpdateAbsorbsData := by
  intro data s
  refine ⟨fun hdead => exec_md4Update_of_not_live data (HashPhase.not_live_iff.2 hdead), fun hok hphase => ?_⟩
  have hlive := HashPhase.live_iff.2 hphase
  obtain ⟨u, hupdate, habsorbs⟩ := hashUpdate_absorbs hok hlive data
  exact ⟨u, exec_md4Update_of_live hlive hupdate, habsorbs⟩

/-- Settles O29: the bytes held, with the padding, are whole blocks. -/
theorem sha1FinishGivesTheDigest : Obligations.Sha1FinishGivesTheDigest := by
  intro s
  refine ⟨fun hdead => exec_sha1Finish_of_not_live (HashPhase.not_live_iff.2 hdead), fun hok hphase => ?_⟩
  have hlive := HashPhase.live_iff.2 hphase
  obtain ⟨d, hfinish, hlen, hdigests⟩ := hashFinish_digests hok hlive
  exact ⟨d, _, _, exec_sha1Finish_of_live hlive hfinish, rfl, hlen, hdigests⟩

/-- Settles O30, as for SHA-1. -/
theorem md4FinishGivesTheDigest : Obligations.Md4FinishGivesTheDigest := by
  intro s
  refine ⟨fun hdead => exec_md4Finish_of_not_live (HashPhase.not_live_iff.2 hdead), fun hok hphase => ?_⟩
  have hlive := HashPhase.live_iff.2 hphase
  obtain ⟨d, hfinish, hlen, hdigests⟩ := hashFinish_digests hok hlive
  exact ⟨d, _, _, exec_md4Finish_of_live hlive hfinish, rfl, hlen, hdigests⟩

/-- Settles O34: on either unit the two updates store what the joined one stores. -/
theorem updateSplitInvariance : Obligations.UpdateSplitInvariance := by
  intro a b s
  refine ⟨fun hok hlive => ?_, fun hok hlive => ?_⟩
  · obtain ⟨u, v, hu, hv, huv⟩ := hashUpdate_append (alg := sha1Alg) hok hlive a b
    have hlive' := HashPhase.live_iff.2 (.inr (hashUpdate_phase hu))
    have hsecond := exec_sha1Update_of_live (s := (s.setSha1 u).ok .none) hlive' hv
    exact ⟨_, _, (execAll_cons (exec_sha1Update_of_live hlive hu)).trans (execAll_cons hsecond),
      exec_sha1Update_of_live hlive huv, rfl⟩
  · obtain ⟨u, v, hu, hv, huv⟩ := hashUpdate_append (alg := md4Alg) hok hlive a b
    have hlive' := HashPhase.live_iff.2 (.inr (hashUpdate_phase hu))
    have hsecond := exec_md4Update_of_live (s := (s.setMd4 u).ok .none) hlive' hv
    exact ⟨_, _, (execAll_cons (exec_md4Update_of_live hlive hu)).trans (execAll_cons hsecond),
      exec_md4Update_of_live hlive huv, rfl⟩

/-! ### Padding -/

theorem bitLen_toNat (total : DWord) : (bitLen total).toNat = total.toNat * 8 % 2 ^ 64 := by
  rw [bitLen, BitVec.toNat_mul]
  rfl

/-- Settles O31: both commands push one zero fill and end in the bit length, each in its own byte order. -/
theorem paddingCompletesTheBlock : Obligations.PaddingCompletesTheBlock := by
  intro length s
  refine ⟨(119 - length.toNat % 64) % 64, be64bytes (bitLen length), le64bytes (bitLen length), by omega, by omega,
    fun i => ⟨?_, ?_⟩, rfl, rfl⟩
  · rw [be64bytes_toNat, bitLen_toNat, show 56 - 8 * i.val = 8 * (7 - i.val) by omega, Nat.pow_mul]
  · rw [le64bytes_toNat, bitLen_toNat, Nat.pow_mul]

/-- Settles O32: on either unit the finish pushes the bytes that the padding command answers. -/
theorem finishAgreesWithPadding : Obligations.FinishAgreesWithPadding := by
  intro s
  refine ⟨fun hok hlive hfill => ?_, fun hok hlive hfill => ?_⟩
  · obtain ⟨u, hupdate, hfinish⟩ := hashFinish_eq_update_padBytes (alg := sha1Alg) hok hlive hfill
    exact ⟨_, _, u, _, _, rfl, exec_sha1Update_of_live hlive hupdate, exec_sha1Finish_of_live hlive hfinish, rfl⟩
  · obtain ⟨u, hupdate, hfinish⟩ := hashFinish_eq_update_padBytes (alg := md4Alg) hok hlive hfill
    exact ⟨_, _, u, _, _, rfl, exec_md4Update_of_live hlive hupdate, exec_md4Finish_of_live hlive hfinish, rfl⟩

/-! ### Length extension of both hashes -/

section
variable {i : Instr} {s : State} {data d : Bytes}

/-- A command that starts a SHA-1 context, then an update and a finish. -/
theorem execAll_sha1_digest {u : HashUnit 5} (hstart : exec i s = .next ((s.setSha1 u).ok .none))
    (hlive : u.phase.live = true) (hd : hashDigest sha1Alg u data = .ok d) :
    ∃ t, execAll [i, .sha1Update data, .sha1Finish] s = .next t ∧
      t.responses = s.responses ++ [⟨.ok, .none⟩, ⟨.ok, .none⟩, ⟨.ok, .bytes d⟩] := by
  obtain ⟨v, hupdate, hfinish⟩ := hashDigest_eq_ok hd
  have hsecond := exec_sha1Update_of_live (s := (s.setSha1 u).ok .none) hlive hupdate
  have hthird := exec_sha1Finish_of_live (s := (((s.setSha1 u).ok .none).setSha1 v).ok .none)
    (HashPhase.live_iff.2 (.inr (hashUpdate_phase hupdate))) hfinish
  exact ⟨_, (execAll_cons hstart).trans ((execAll_cons hsecond).trans (execAll_cons hthird)), by simp⟩

/-- A command that starts an MD4 context, then an update and a finish. -/
theorem execAll_md4_digest {u : HashUnit 4} (hstart : exec i s = .next ((s.setMd4 u).ok .none))
    (hlive : u.phase.live = true) (hd : hashDigest md4Alg u data = .ok d) :
    ∃ t, execAll [i, .md4Update data, .md4Finish] s = .next t ∧
      t.responses = s.responses ++ [⟨.ok, .none⟩, ⟨.ok, .none⟩, ⟨.ok, .bytes d⟩] := by
  obtain ⟨v, hupdate, hfinish⟩ := hashDigest_eq_ok hd
  have hsecond := exec_md4Update_of_live (s := (s.setMd4 u).ok .none) hlive hupdate
  have hthird := exec_md4Finish_of_live (s := (((s.setMd4 u).ok .none).setMd4 v).ok .none)
    (HashPhase.live_iff.2 (.inr (hashUpdate_phase hupdate))) hfinish
  exact ⟨_, (execAll_cons hstart).trans ((execAll_cons hsecond).trans (execAll_cons hthird)), by simp⟩

end

/-- Settles O33: the three runs give the three digests of `hashDigest_lengthExtension`, on either unit. -/
theorem lengthExtension : Obligations.LengthExtension := by
  intro p x s s'
  constructor
  · obtain ⟨d, e, hd, he, hall⟩ := hashDigest_lengthExtension (alg := sha1Alg) be32_be32bytes s.sha1 s'.sha1 p x rfl
    obtain ⟨t, ht, hr⟩ := execAll_sha1_digest (i := .sha1Init) (s := s) rfl rfl hd
    obtain ⟨t1, ht1, hr1⟩ := execAll_sha1_digest (i := .sha1InitState d _) (s := s') rfl rfl he
    obtain ⟨t2, ht2, hr2⟩ := execAll_sha1_digest (i := .sha1Init) (s := s) rfl rfl hall
    exact ⟨d, _, e, t, t1, t2, ht, hr, rfl, ht1, hr1, ht2, hr2⟩
  · obtain ⟨d, e, hd, he, hall⟩ := hashDigest_lengthExtension (alg := md4Alg) le32_le32bytes s.md4 s'.md4 p x rfl
    obtain ⟨t, ht, hr⟩ := execAll_md4_digest (i := .md4Init) (s := s) rfl rfl hd
    obtain ⟨t1, ht1, hr1⟩ := execAll_md4_digest (i := .md4InitState d _) (s := s') rfl rfl he
    obtain ⟨t2, ht2, hr2⟩ := execAll_md4_digest (i := .md4Init) (s := s) rfl rfl hall
    exact ⟨d, _, e, t, t1, t2, ht, hr, rfl, ht1, hr1, ht2, hr2⟩

/-! ### The phases -/

section
variable {nw : Nat} {alg : HashAlg nw} {u : HashUnit nw} {w : HashWrite nw} {r : Response} {s t : State}

theorem updateRule_phase {data : Bytes} (h : updateRule alg data u = .ok (w, r)) :
    w.phase = if u.phase = .init ∨ u.phase = .updating then .updating else u.phase := by
  simp only [← HashPhase.live_iff]
  unfold updateRule at h
  split at h
  · next hlive =>
    rw [if_pos hlive]
    split at h
    · next v hv => cases h; exact hashUpdate_phase hv
    · cases h
  · next hdead => rw [if_neg hdead]; cases h; rfl

theorem finishRule_phase (h : finishRule alg u = .ok (w, r)) :
    w.phase = if u.phase = .init ∨ u.phase = .updating then .finalized else u.phase := by
  simp only [← HashPhase.live_iff]
  unfold finishRule at h
  split at h
  · next hlive =>
    rw [if_pos hlive]
    split at h
    · cases h; rfl
    · cases h
  · next hdead => rw [if_neg hdead]; cases h; rfl

theorem runOn_sha1_phase {rule : HashUnit 5 → Except Fault (HashWrite 5 × Response)} {phase : HashPhase}
    (hrun : runOn State.sha1 State.storeSha1 rule s = .next t)
    (hphase : ∀ w r, rule s.sha1 = .ok (w, r) → w.phase = phase) : t.sha1.phase = phase := by
  obtain ⟨w, r, hrule, rfl⟩ := runOn_next hrun
  simp [hphase w r hrule]

theorem runOn_md4_phase {rule : HashUnit 4 → Except Fault (HashWrite 4 × Response)} {phase : HashPhase}
    (hrun : runOn State.md4 State.storeMd4 rule s = .next t)
    (hphase : ∀ w r, rule s.md4 = .ok (w, r) → w.phase = phase) : t.md4.phase = phase := by
  obtain ⟨w, r, hrule, rfl⟩ := runOn_next hrun
  simp [hphase w r hrule]

end

/-- Settles O36: a command of another unit writes neither context, and each command of the unit leaves the phase its
rule gives. -/
theorem phaseTransitionTable : Obligations.PhaseTransitionTable := by
  intro i s t hexec
  obtain ⟨hsha1, hmd4, -, -⟩ := unitsAreWrittenByTheirOwnCommands i s t hexec
  constructor
  · cases i with
    | sha1Init | sha1InitState | sha1Padding => cases hexec; rfl
    | sha1Update data =>
      exact runOn_sha1_phase ((execSha1Update_eq_runOn data s).symm.trans hexec) fun _ _ => updateRule_phase
    | sha1Finish => exact runOn_sha1_phase ((execSha1Finish_eq_runOn s).symm.trans hexec) fun _ _ => finishRule_phase
    | _ => exact congrArg HashUnit.phase (hsha1 (by simp [Instr.opcode, unitNumber, Opcode.number]))
  · cases i with
    | md4Init | md4InitState | md4Padding => cases hexec; rfl
    | md4Update data =>
      exact runOn_md4_phase ((execMd4Update_eq_runOn data s).symm.trans hexec) fun _ _ => updateRule_phase
    | md4Finish => exact runOn_md4_phase ((execMd4Finish_eq_runOn s).symm.trans hexec) fun _ _ => finishRule_phase
    | _ => exact congrArg HashUnit.phase (hmd4 (by simp [Instr.opcode, unitNumber, Opcode.number]))

end Sys2Proof.Machine

/-! The SHA-1 compression (spec 43_sha1_compress.md R172 to R176): what each word of the schedule is, what one step
makes of the working words, and what the final addition gives. -/

namespace Sys2Proof.Machine

/-! ### The schedule -/

/-- A loaded word is the big-endian reading of its four bytes of the block (R172). -/
theorem sha1Load_toNat (block : BytesN 64) (j : Fin 16) :
    ((sha1Load block)[j.val]).toNat = block[4 * j.val].toNat * 2 ^ 24 + block[4 * j.val + 1].toNat * 2 ^ 16 +
      block[4 * j.val + 2].toNat * 2 ^ 8 + block[4 * j.val + 3].toNat := by
  have hword : (sha1Load block)[j.val] = be32 (bytes4At (n := 16) block j) := Vector.getElem_ofFn j.isLt
  rw [hword, be32_toNat]
  simp only [bytes4At_getElem, Nat.add_zero]

/-- Expanding further keeps the words that stand. -/
theorem sha1Expand_getElem_of_le (w0 : Vector Word 16) {k m i : Nat} (hkm : k ≤ m) (hi : i < 16 + k) :
    (sha1Expand w0 m)[i] = (sha1Expand w0 k)[i] := by
  induction m, hkm using Nat.le_induction with
  | base => rfl
  | succ m hkm ih => exact (Vector.getElem_push_lt (by omega)).trans ih

/-- The word that one more expansion adds (R173). -/
theorem sha1Expand_succ_getElem_last (w0 : Vector Word 16) (k : Nat) :
    (sha1Expand w0 (k + 1))[k + 16] =
      ((sha1Expand w0 k)[k + 13] ^^^ (sha1Expand w0 k)[k + 8] ^^^ (sha1Expand w0 k)[k + 2] ^^^
        (sha1Expand w0 k)[k]).rotateLeft 1 := by
  simp only [sha1Expand, rotl, Nat.add_comm k, Vector.getElem_push_eq]
  simp only [Nat.add_comm 16 k, Nat.reduceSubDiff, Nat.add_sub_cancel_right, Nat.add_comm _ k]

/-- The schedule's recurrence, with every word read from the whole schedule (R173). -/
theorem sha1Expand_recurrence (w0 : Vector Word 16) {k m : Nat} (h : k < m) :
    (sha1Expand w0 m)[k + 16] =
      ((sha1Expand w0 m)[k + 13] ^^^ (sha1Expand w0 m)[k + 8] ^^^ (sha1Expand w0 m)[k + 2] ^^^
        (sha1Expand w0 m)[k]).rotateLeft 1 := by
  have hkeep (i : Nat) (hi : i < 16 + k) : (sha1Expand w0 m)[i] = (sha1Expand w0 k)[i] :=
    sha1Expand_getElem_of_le w0 h.le hi
  rw [sha1Expand_getElem_of_le w0 h (by omega), sha1Expand_succ_getElem_last, hkeep (k + 13) (by omega),
    hkeep (k + 8) (by omega), hkeep (k + 2) (by omega), hkeep k (by omega)]

/-! ### The steps -/

/-- The round function and constant of a step: the rounds begin at steps 0, 20, 40 and 60 (R174). -/
theorem sha1F_sha1K_eq_ite (i : Nat) (b c d : Word) :
    (sha1F i b c d = if i < 20 then (b &&& c) ||| (~~~b &&& d) else if i < 40 then b ^^^ c ^^^ d
      else if i < 60 then (b &&& c) ||| (b &&& d) ||| (c &&& d) else b ^^^ c ^^^ d) ∧
    sha1K i = if i < 20 then 0x5A827999 else if i < 40 then 0x6ED9EBA1
      else if i < 60 then 0x8F1BBCDC else 0xCA62C1D6 := by
  match hround : i / 20 with
  | 0 => simp [sha1F, sha1K, hround, show i < 20 by omega]
  | 1 => simp [sha1F, sha1K, hround, show ¬i < 20 by omega, show i < 40 by omega]
  | 2 => simp [sha1F, sha1K, hround, show ¬i < 20 by omega, show ¬i < 40 by omega, show i < 60 by omega]
  | r + 3 => simp [sha1F, sha1K, hround, show ¬i < 20 by omega, show ¬i < 40 by omega, show ¬i < 60 by omega]

/-- The working words `a` to `e`, in this order. -/
def Sha1Vars.toVector (v : Sha1Vars) : Vector Word 5 := #v[v.a, v.b, v.c, v.d, v.e]

theorem sha1Start_toVector (h : Vector Word 5) : (sha1Start h).toVector = h := by
  ext i hi
  match i, hi with
  | 0, _ | 1, _ | 2, _ | 3, _ | 4, _ => rfl

/-- The simultaneous update of a step: every word on the right is one from before it (R175). -/
theorem sha1Step_toVector (w : Vector Word 80) (v : Sha1Vars) (i : Fin 80) :
    (sha1Step w v i).toVector = #v[v.a.rotateLeft 5 + sha1F i.val v.b v.c v.d + v.e + sha1K i.val + w[i.val], v.a,
      v.b.rotateLeft 30, v.c, v.d] := rfl

/-- The working words before step `i`, that is after the steps below it (R175). -/
def sha1Before (w : Vector Word 80) (h : Vector Word 5) (i : Nat) : Sha1Vars :=
  ((List.finRange 80).take i).foldl (sha1Step w) (sha1Start h)

theorem sha1Before_succ (w : Vector Word 80) (h : Vector Word 5) (i : Fin 80) :
    sha1Before w h (i.val + 1) = sha1Step w (sha1Before w h i.val) i :=
  sha1_steps_succ w (sha1Start h) i

theorem sha1Before_eighty (w : Vector Word 80) (h : Vector Word 5) :
    sha1Before w h 80 = sha1Rounds w (sha1Start h) := by
  rw [sha1Before, List.take_of_length_le (by simp), sha1Rounds]

/-! ### The final addition -/

/-- The compression adds the working words after step 79 to the chaining words (R176). -/
theorem sha1Compress_getElem (h : Vector Word 5) (block : BytesN 64) (j : Fin 5) :
    (sha1Compress h block)[j] = h[j] + (sha1Rounds (sha1Schedule block) (sha1Start h)).toVector[j] := by
  match j with
  | 0 | 1 | 2 | 3 | 4 => rfl

/-- Settles O37: the loaded words stay in the schedule and the others obey the recurrence; the words before each step
witness the run of the 80 steps. -/
theorem sha1CompressionSteps : Obligations.Sha1CompressionSteps := by
  intro h block
  refine ⟨fun j => ?load, fun j => sha1Expand_recurrence (sha1Load block) j.isLt,
    fun i => (sha1Before (sha1Schedule block) h i).toVector, sha1Start_toVector h,
    fun i => ?step, fun j => ?final⟩
  case load =>
    have hkeep : (sha1Schedule block)[j.val] = (sha1Load block)[j.val] :=
      sha1Expand_getElem_of_le (sha1Load block) (Nat.zero_le 64) j.isLt
    rw [hkeep, sha1Load_toNat]
  case step =>
    have hnext := congrArg Sha1Vars.toVector (sha1Before_succ (sha1Schedule block) h i)
    rw [sha1Step_toVector] at hnext
    obtain ⟨hfun, hconst⟩ := sha1F_sha1K_eq_ite i (sha1Before (sha1Schedule block) h i).b
      (sha1Before (sha1Schedule block) h i).c (sha1Before (sha1Schedule block) h i).d
    exact ⟨_, _, _, _, _, _, _, rfl, hfun, hconst, hnext⟩
  case final => simp only [sha1Compress_getElem, sha1Before_eighty]

end Sys2Proof.Machine

/-! The MD4 compression (spec 44_md4_compress.md R187 to R192): the closed form of the step table, what each word of the
schedule is, what one step makes of the working words, and what the final addition gives. -/

namespace Sys2Proof.Machine

/-! ### The step table and the schedule -/

/-- Settles O38: a row of the table for each place of each round, all 48 compared. -/
theorem md4TableClosedForm : Obligations.Md4TableClosedForm := by
  refine ⟨rfl, ?rows⟩
  case rows => decide

/-- A loaded word is the little-endian reading of its four bytes of the block (R187). -/
theorem md4Load_toNat (block : BytesN 64) (j : Fin 16) :
    ((md4Load block)[j]).toNat = block[4 * j.val].toNat + block[4 * j.val + 1].toNat * 2 ^ 8 +
      block[4 * j.val + 2].toNat * 2 ^ 16 + block[4 * j.val + 3].toNat * 2 ^ 24 := by
  have hword : (md4Load block)[j] = le32 (bytes4At (n := 16) block j) := Vector.getElem_ofFn j.isLt
  rw [hword, le32_toNat]
  simp only [bytes4At_getElem, Nat.add_zero]

/-! ### The steps -/

section
variable (x : Vector Word 16)

/-- A step with its target named: it writes that word only, from the other three in cyclic order after it (R189). -/
theorem md4Step_eq_set (v : Vector Word 4) {s : Nat} (row : Md4Row) {t : Fin 4} (ht : (4 - s % 4) % 4 = t.val) :
    md4Step x v s row = v.set t.val
      ((v[t] + row.fn.apply v[t + 1] v[t + 2] v[t + 3] + x[row.k] + row.fn.constant).rotateLeft row.r) t.isLt := by
  obtain rfl : t = ⟨(4 - s % 4) % 4, Nat.mod_lt _ (by decide)⟩ := Fin.ext ht.symm
  rfl

/-- The working words before step `s`, that is after the steps below it (R189). -/
def md4Before (h : Vector Word 4) (s : Nat) : Vector Word 4 := md4Steps x 0 (md4Table.take s) h

variable {x} {h : Vector Word 4}

theorem md4Before_succ {s : Nat} {row : Md4Row} (hrow : md4Table[s]? = some row) :
    md4Before x h (s + 1) = md4Step x (md4Before x h s) s row := by
  obtain ⟨hs, -⟩ := List.getElem?_eq_some_iff.1 hrow
  rw [md4Before, List.take_add_one, hrow, Option.toList_some, md4Steps_concat, List.length_take_of_le hs.le,
    Nat.zero_add, md4Before]

theorem md4Before_fortyEight : md4Before x h 48 = md4Steps x 0 md4Table h := rfl

end

/-! ### The final addition -/

/-- The compression adds the working words after step 47 to the chaining words (R192). -/
theorem md4Compress_getElem (h : Vector Word 4) (block : BytesN 64) (i : Fin 4) :
    (md4Compress h block)[i] = h[i] + (md4Before (md4Load block) h 48)[i] := by
  rw [md4Before_fortyEight]
  match i with
  | 0 | 1 | 2 | 3 => rfl

/-- Settles O39: the four step positions have the targets `a`, `d`, `c`, `b`; the words before each step witness the run
of the 48 steps, whose rows the closed form of the table names. -/
theorem md4CompressionSteps : Obligations.Md4CompressionSteps := by
  refine ⟨md4Load_toNat, fun x y z => ⟨rfl, rfl, rfl, rfl, rfl, rfl⟩, fun x a b c d n row => ?step, fun h block =>
    ⟨md4Before (md4Load block) h, rfl, fun j hj => ?run, md4Compress_getElem h block⟩⟩
  case step =>
    exact ⟨md4Step_eq_set x _ row (t := 0) (by omega), md4Step_eq_set x _ row (t := 3) (by omega),
      md4Step_eq_set x _ row (t := 2) (by omega), md4Step_eq_set x _ row (t := 1) (by omega)⟩
  case run =>
    obtain ⟨hround0, hround1, hround2⟩ := md4TableClosedForm.2 j hj
    rw [Nat.add_comm 16] at hround1
    rw [Nat.add_comm 32] at hround2
    exact ⟨md4Before_succ hround0, md4Before_succ hround1, md4Before_succ hround2⟩

end Sys2Proof.Machine

/-! The PRNG unit (spec 45_prng_mt19937.md R202 to R212). The bit-by-bit recovery is a right inverse of a shift-XOR step,
and on the finite type of words that makes it a left inverse too. The outputs of a generator are read off one relation,
`OnStream x p n`: the generator `p` stands at word `n` of the stream `x` of the recurrence, which it outputs next. Every
`MT_NEXT` moves it on by one word, and 624 consecutive stream words put a generator there, whoever gave them. -/

namespace Sys2Proof.Machine

open Sys2Proof.Safety

/-! ### The inversions -/

section
variable {shift i n : Nat} {y mask x : Word}

theorem getLsbD_or_bitAt (hn : n < 32) (b : Bool) :
    (x ||| bitAt n b).getLsbD i = (x.getLsbD i || (decide (n = i) && b)) := by
  cases b <;> simp [bitAt, hn]

/-- A bit set at another place is not seen. -/
theorem getLsbD_or_bitAt_of_ne (hn : n < 32) (hi : n ≠ i) (b : Bool) : (x ||| bitAt n b).getLsbD i = x.getLsbD i := by
  simp [getLsbD_or_bitAt hn, hi]

/-- Bit `i` of the operand of a right shift-XOR step with result `y`, from a higher bit of the operand `x` (R209). -/
def rightBit (shift : Nat) (y x : Word) (i : Nat) : Bool :=
  if i + shift > 31 then y.getLsbD i else y.getLsbD i ^^ x.getLsbD (i + shift)

/-- Bit `i` of the operand of a left shift-XOR step with result `y`, from a lower bit of the operand `x` (R210). -/
def leftBit (shift : Nat) (y mask x : Word) (i : Nat) : Bool :=
  if i < shift then y.getLsbD i else y.getLsbD i ^^ (x.getLsbD (i - shift) && mask.getLsbD i)

/-- The bits of `x` from `n` up are recovered, and the others are still clear. -/
def RecoveredFrom (shift : Nat) (y : Word) (n : Nat) (x : Word) : Prop :=
  ∀ i < 32, x.getLsbD i = if n ≤ i then rightBit shift y x i else false

/-- The bits of `x` below `n` are recovered, and the others are still clear. -/
def RecoveredBelow (shift : Nat) (y mask : Word) (n : Nat) (x : Word) : Prop :=
  ∀ i < 32, x.getLsbD i = if i < n then leftBit shift y mask x i else false

/-- Setting bit `n` changes no bit recovered from a place above it. -/
theorem rightBit_or_bitAt (hshift : 1 ≤ shift) (hn : n < 32) (hi : n ≤ i) (b : Bool) :
    rightBit shift y (x ||| bitAt n b) i = rightBit shift y x i := by
  unfold rightBit
  rw [getLsbD_or_bitAt_of_ne hn (by omega)]

/-- Setting bit `n` changes no bit recovered from a place below it. -/
theorem leftBit_or_bitAt (hshift : 1 ≤ shift) (hn : n < 32) (hi : i ≤ n) (b : Bool) :
    leftBit shift y mask (x ||| bitAt n b) i = leftBit shift y mask x i := by
  unfold leftBit
  split
  · rfl
  · rw [getLsbD_or_bitAt_of_ne hn (by omega)]

/-- The top-down recovery goes on with the next lower bit (R209). -/
theorem RecoveredFrom.or_bitAt (hshift : 1 ≤ shift) (hn : n < 32) (h : RecoveredFrom shift y (n + 1) x) :
    RecoveredFrom shift y n (x ||| bitAt n (rightBit shift y x n)) := by
  intro i hi
  rcases Nat.lt_trichotomy i n with hlt | rfl | hgt
  · rw [getLsbD_or_bitAt_of_ne hn hlt.ne', h i hi, if_neg (by omega), if_neg (by omega)]
  · rw [getLsbD_or_bitAt hn, h i hi, if_neg (by omega), if_pos (le_refl i), rightBit_or_bitAt hshift hn (le_refl i)]
    simp
  · rw [getLsbD_or_bitAt_of_ne hn hgt.ne, h i hi, if_pos (by omega), if_pos hgt.le,
      rightBit_or_bitAt hshift hn hgt.le]

/-- The bottom-up recovery goes on with the next higher bit (R210). -/
theorem RecoveredBelow.or_bitAt (hshift : 1 ≤ shift) (hn : n < 32) (h : RecoveredBelow shift y mask n x) :
    RecoveredBelow shift y mask (n + 1) (x ||| bitAt n (leftBit shift y mask x n)) := by
  intro i hi
  rcases Nat.lt_trichotomy i n with hlt | rfl | hgt
  · rw [getLsbD_or_bitAt_of_ne hn hlt.ne', h i hi, if_pos hlt, if_pos (by omega), leftBit_or_bitAt hshift hn hlt.le]
  · rw [getLsbD_or_bitAt hn, h i hi, if_neg (by omega), if_pos (by omega), leftBit_or_bitAt hshift hn (le_refl i)]
    simp
  · rw [getLsbD_or_bitAt_of_ne hn hgt.ne, h i hi, if_neg (by omega), if_neg (by omega)]

theorem RecoveredFrom.invRightFrom (hshift : 1 ≤ shift) (hn : n ≤ 32) (h : RecoveredFrom shift y n x) :
    RecoveredFrom shift y 0 (invRightFrom shift y n x) := by
  induction n generalizing x with
  | zero => exact h
  | succ n ih => exact ih (by omega) (h.or_bitAt hshift hn)

theorem RecoveredBelow.invLeftFrom (hshift : 1 ≤ shift) (hn : i + n = 32) (h : RecoveredBelow shift y mask i x) :
    RecoveredBelow shift y mask 32 (invLeftFrom shift y mask n i x) := by
  induction n generalizing i x with
  | zero => exact hn ▸ h
  | succ n ih => exact ih (by omega) (h.or_bitAt hshift (by omega))

/-- Every bit of `MT_INV_RSHIFT` (R209). -/
theorem invertRightShift_getLsbD (hshift : 1 ≤ shift) (hi : i < 32) :
    (invertRightShift y shift).getLsbD i = rightBit shift y (invertRightShift y shift) i := by
  have hstart : RecoveredFrom shift y 32 0 := fun i hi => by simp [hi]
  have h := hstart.invRightFrom hshift (le_refl 32) i hi
  rwa [if_pos (Nat.zero_le i)] at h

/-- Every bit of `MT_INV_LSHIFT` (R210). -/
theorem invertLeftShift_getLsbD (hshift : 1 ≤ shift) (hi : i < 32) :
    (invertLeftShift y shift mask).getLsbD i = leftBit shift y mask (invertLeftShift y shift mask) i := by
  have hstart : RecoveredBelow shift y mask 0 0 := fun i _ => by simp
  have h := hstart.invLeftFrom hshift (Nat.zero_add 32) i hi
  rwa [if_pos hi] at h

/-- A word with these bits is an operand of the right shift-XOR step with result `y`. -/
theorem shiftXorRight_eq_of_rightBit (h : ∀ i < 32, x.getLsbD i = rightBit shift y x i) :
    shiftXorRight x shift = y := by
  refine BitVec.eq_of_getLsbD_eq fun i hi => ?_
  rw [shiftXorRight, BitVec.getLsbD_xor, BitVec.getLsbD_ushiftRight, h i hi, rightBit, Nat.add_comm shift]
  split
  · rw [BitVec.getLsbD_of_ge x _ (by omega), Bool.xor_false]
  · rw [Bool.xor_assoc, Bool.xor_self, Bool.xor_false]

/-- A word with these bits is an operand of the left shift-XOR step with result `y`. -/
theorem shiftXorLeft_eq_of_leftBit (h : ∀ i < 32, x.getLsbD i = leftBit shift y mask x i) :
    shiftXorLeft x shift mask = y := by
  refine BitVec.eq_of_getLsbD_eq fun i hi => ?_
  rw [shiftXorLeft, BitVec.getLsbD_xor, BitVec.getLsbD_and, BitVec.getLsbD_shiftLeft, h i hi, leftBit]
  by_cases hlt : i < shift <;> simp [hi, hlt]

theorem shiftXorRight_invertRightShift (hshift : 1 ≤ shift) (y : Word) :
    shiftXorRight (invertRightShift y shift) shift = y :=
  shiftXorRight_eq_of_rightBit fun _ hi => invertRightShift_getLsbD hshift hi

theorem shiftXorLeft_invertLeftShift (hshift : 1 ≤ shift) (y mask : Word) :
    shiftXorLeft (invertLeftShift y shift mask) shift mask = y :=
  shiftXorLeft_eq_of_leftBit fun _ hi => invertLeftShift_getLsbD hshift hi

/-- On words, undoing on one side is undoing on the other: there are finitely many. -/
theorem rightInverse_of_leftInverse {f g : Word → Word} (h : Function.LeftInverse f g) : Function.RightInverse f g :=
  h.rightInverse_of_surjective (Finite.surjective_of_injective h.injective)

theorem invertRightShift_shiftXorRight (hshift : 1 ≤ shift) (x : Word) :
    invertRightShift (shiftXorRight x shift) shift = x :=
  rightInverse_of_leftInverse (f := (shiftXorRight · shift)) (g := (invertRightShift · shift))
    (shiftXorRight_invertRightShift hshift) x

theorem invertLeftShift_shiftXorLeft (hshift : 1 ≤ shift) (x mask : Word) :
    invertLeftShift (shiftXorLeft x shift mask) shift mask = x :=
  rightInverse_of_leftInverse (f := (shiftXorLeft · shift mask)) (g := (invertLeftShift · shift mask))
    (shiftXorLeft_invertLeftShift hshift · mask) x

end

/-- Settles O48: the recovered bits fix the inversion, which undoes the step on both sides. -/
theorem invertRightShiftResult : Obligations.InvertRightShiftResult := by
  intro shift y s ⟨hshift, _⟩
  refine ⟨⟨invertRightShift y shift, rfl, fun i hi => invertRightShift_getLsbD hshift hi,
    shiftXorRight_invertRightShift hshift y⟩, ?_⟩
  exact congrArg (fun w => Host.Outcome.next (answers s (.word w))) (invertRightShift_shiftXorRight hshift y)

/-- Settles O49: the recovered bits fix the inversion, which undoes the step on both sides. -/
theorem invertLeftShiftResult : Obligations.InvertLeftShiftResult := by
  intro shift y mask s ⟨hshift, _⟩
  refine ⟨⟨invertLeftShift y shift mask, rfl, fun i hi => invertLeftShift_getLsbD hshift hi,
    shiftXorLeft_invertLeftShift hshift y mask⟩, ?_⟩
  exact congrArg (fun w => Host.Outcome.next (answers s (.word w))) (invertLeftShift_shiftXorLeft hshift y mask)

/-! ### The tempering -/

/-- The four inversions in reverse tempering order (R211). -/
def untemper (z : Word) : Word :=
  invertRightShift (invertLeftShift (invertLeftShift (invertRightShift z 18) 15 0xEFC60000) 7 0x9D2C5680) 11

theorem temper_untemper (z : Word) : temper (untemper z) = z := by
  rw [temper, untemper, shiftXorRight_invertRightShift (by decide), shiftXorLeft_invertLeftShift (by decide),
    shiftXorLeft_invertLeftShift (by decide), shiftXorRight_invertRightShift (by decide)]

theorem untemper_temper (x : Word) : untemper (temper x) = x :=
  rightInverse_of_leftInverse temper_untemper x

/-- Settles O47: the commands answer with the steps of `untemper`. -/
theorem untemperUndoesTemper : Obligations.UntemperUndoesTemper := by
  refine ⟨fun x s => ⟨_, _, _, rfl, rfl, rfl, ?_⟩, temper_untemper⟩
  exact congrArg (fun w => Host.Outcome.next (answers s (.word w))) (untemper_temper x)

/-! ### Seeding -/

theorem seedWords_getElem_zero {n i : Nat} {t : Word} (h : 0 < (seedWords n i t).length) :
    (seedWords n i t)[0] = t := by
  cases n with
  | zero => exact absurd h (Nat.lt_irrefl 0)
  | succ n => rfl

/-- One step of the seeding recurrence, at any place of the list (R202). -/
theorem seedWords_getElem_succ {n i j : Nat} {t : Word} (h : j + 1 < (seedWords n i t).length) :
    (seedWords n i t)[j + 1] = (0x6C078965 : Word) * ((seedWords n i t)[j] ^^^ ((seedWords n i t)[j] >>> 30)) +
      BitVec.ofNat 32 (i + j + 1) := by
  induction n generalizing i j t with
  | zero => exact absurd h (Nat.not_lt_zero _)
  | succ n ih =>
    cases j with
    | zero => exact seedWords_getElem_zero _
    | succ j =>
      simp only [seedWords, List.getElem_cons_succ]
      rw [ih, Nat.add_assoc i 1 j, Nat.add_comm 1 j]

theorem seedExpand_zero (seed : Word) : (seedExpand seed)[0] = seed := rfl

theorem seedExpand_succ (seed : Word) (i : Nat) (h : i + 1 < 624) :
    (seedExpand seed)[i + 1] =
      (0x6C078965 : Word) * ((seedExpand seed)[i] ^^^ ((seedExpand seed)[i] >>> 30)) + BitVec.ofNat 32 (i + 1) := by
  have hstep := seedWords_getElem_succ (n := 624) (i := 0) (j := i) (t := seed) (by rwa [seedWords_length])
  rwa [Nat.zero_add] at hstep

/-- Settles O42: the recurrence on words, read as numbers. -/
theorem mtNewSeedsByTheRecurrence : Obligations.MtNewSeedsByTheRecurrence := by
  intro seed s
  refine ⟨seedExpand seed, seedExpand_zero seed, fun i => ?_, rfl⟩
  have hfactor : (0x6C078965 : Word).toNat = 1812433253 := rfl
  simp only [seedExpand_succ seed i.val (by omega), BitVec.toNat_add, BitVec.toNat_mul, BitVec.toNat_ofNat, hfactor,
    Nat.mod_add_mod, Nat.add_mod_mod]

/-- Settles O43: the rule stores the words as they are. -/
theorem mtFromTakesTheWords : Obligations.MtFromTakesTheWords := fun _ _ => rfl

/-! ### One output -/

section
variable {s : State}

theorem exec_mtNext_of_idle (h : s.prng.phase = .idle) : exec .mtNext s = .next (traps s .badPhase 6) := by
  simp only [exec, execMtNext, h]
  exact congrArg _ (State.raise_eq_traps rfl s)

/-- An output of a seeded generator, by what the body of `MT_NEXT` gives (R207). -/
theorem exec_mtNext_of_mtAdvance {q : Prng} {w : Word} (h : s.prng.phase = .seeded)
    (hq : mtAdvance s.prng = some (q, w)) :
    exec .mtNext s = .next { answers s (.word w) with prng := q } := by
  simp only [exec, execMtNext, h, hq]
  rfl

end

/-- Settles O44: the two ways the body of `MT_NEXT` goes on, with the twist read index by index. -/
theorem mtNextTwistsAndTempers : Obligations.MtNextTwistsAndTempers := by
  intro s
  refine ⟨exec_mtNext_of_idle, fun hseeded hlt => exec_mtNext_of_mtAdvance hseeded (mtAdvance_of_lt hlt),
    fun hseeded hcur => ⟨twist s.prng.s, fun i => ?low, fun i => ?middle, twist_getElem s.prng.s 623 (by decide),
      ?next⟩⟩
  case low =>
    rw [twist_getElem s.prng.s i.val (by omega), dif_pos (by omega), dif_pos (by omega)]
  case middle =>
    rw [twist_getElem s.prng.s (i.val + 227) (by omega), dif_pos (by omega), dif_neg (by omega)]
    simp only [Nat.add_sub_cancel, Nat.add_assoc, Nat.reduceAdd]
  case next =>
    exact hseeded ▸ exec_mtNext_of_mtAdvance hseeded (mtAdvance_of_eq hcur)

/-! ### The stream -/

/-- `x` obeys the recurrence of order 624 (R208). -/
def IsStream (x : Nat → Word) : Prop := ∀ n, x (n + 624) = twistWord (x n) (x (n + 1)) (x (n + 397))

/-- The stream whose first words are `w` (R208). -/
def streamOf (w : MtWords) (n : Nat) : Word :=
  if h : n < 624 then w[n]
  else twistWord (streamOf w (n - 624)) (streamOf w (n - 623)) (streamOf w (n - 227))
termination_by n
decreasing_by all_goals omega

theorem streamOf_of_lt (w : MtWords) {n : Nat} (h : n < 624) : streamOf w n = w[n] := by
  rw [streamOf, dif_pos h]

theorem streamOf_isStream (w : MtWords) : IsStream (streamOf w) := by
  intro n
  rw [streamOf, dif_neg (by omega)]
  simp only [Nat.add_sub_cancel, Nat.reduceSubDiff]

/-- The words `w` are the 624 words of `x` from `base` up. -/
def HoldsFrom (x : Nat → Word) (base : Nat) (w : MtWords) : Prop := ∀ (i : Nat) (h : i < 624), w[i] = x (base + i)

/-- The generator is seeded, its words are consecutive words of the stream, and its cursor stands at word `n` of it; at
624 that is the word a twist makes first. -/
def OnStream (x : Nat → Word) (p : Prng) (n : Nat) : Prop :=
  p.phase = .seeded ∧ p.cur ≤ 624 ∧ ∃ base, HoldsFrom x base p.s ∧ base + p.cur = n

section
variable {x : Nat → Word} {n base : Nat}

/-- A twist moves on by 624 words of the stream (R204, R208). -/
theorem HoldsFrom.twisted {w : MtWords} (hx : IsStream x) (h : HoldsFrom x base w) :
    HoldsFrom x (base + 624) (twist w) := by
  intro i
  induction i using Nat.strong_induction_on with
  | h i ih =>
    intro hi
    have hneighbour : (if h' : i + 1 < 624 then w[i + 1] else (twist w)[0]) = x (base + i + 1) := by
      split
      · next h' => exact (h (i + 1) h').trans (congrArg x (by omega))
      · next h' =>
        rw [ih 0 (by omega) (by omega)]
        exact congrArg x (by omega)
    have hfar : (if h' : i + 397 < 624 then w[i + 397] else (twist w)[i - 227]'(by omega)) =
        x (base + i + 397) := by
      split
      · next h' => exact (h (i + 397) h').trans (congrArg x (by omega))
      · rw [ih (i - 227) (by omega) (by omega)]
        exact congrArg x (by omega)
    rw [twist_getElem, hneighbour, hfar, h i hi, ← hx (base + i), Nat.add_right_comm]

/-- The body of `MT_NEXT` gives the next word of the stream, tempered, and moves on (R207, R208). -/
theorem OnStream.mtAdvance_eq_some {p : Prng} (hx : IsStream x) (hp : OnStream x p n) :
    ∃ q, mtAdvance p = some (q, temper (x n)) ∧ OnStream x q (n + 1) := by
  obtain ⟨hseeded, hcur, base, hs, rfl⟩ := hp
  rcases Nat.lt_or_eq_of_le hcur with hlt | heq
  · rw [mtAdvance_of_lt hlt, hs p.cur hlt]
    exact ⟨_, rfl, hseeded, hlt, base, hs, rfl⟩
  · have hnew := hs.twisted hx
    rw [mtAdvance_of_eq heq]
    generalize twist p.s = w at hnew ⊢
    rw [hnew 0 (by omega), heq]
    exact ⟨_, rfl, hseeded, (by decide : 1 ≤ 624), base + 624, hnew, rfl⟩

theorem OnStream.exec_mtNext {s : State} (hx : IsStream x) (hs : OnStream x s.prng n) :
    ∃ t, exec .mtNext s = .next t ∧ OnStream x t.prng (n + 1) ∧
      t.responses = s.responses ++ [⟨.ok, .word (temper (x n))⟩] := by
  obtain ⟨q, hadvance, hq⟩ := hs.mtAdvance_eq_some hx
  exact ⟨_, exec_mtNext_of_mtAdvance hs.1 hadvance, hq, rfl⟩

/-- `k` outputs of a generator on the stream are its next `k` words, tempered (R208). -/
theorem OnStream.execAll_mtNext {s : State} (hx : IsStream x) (hs : OnStream x s.prng n) (k : Nat) :
    ∃ t, execAll (List.replicate k .mtNext) s = .next t ∧ OnStream x t.prng (n + k) ∧
      t.responses = s.responses ++ (List.range k).map fun j => ⟨.ok, .word (temper (x (n + j)))⟩ := by
  induction k with
  | zero => exact ⟨s, rfl, hs, by simp⟩
  | succ k ih =>
    obtain ⟨t, hrun, ht, hresponses⟩ := ih
    obtain ⟨u, hexec, hu, hlast⟩ := ht.exec_mtNext hx
    refine ⟨u, ?_, hu, ?_⟩
    · rw [List.replicate_succ', execAll_append hrun, execAll_cons hexec, execAll]
    · rw [hlast, hresponses, List.range_succ, List.map_append, List.append_assoc, List.map_singleton]

end

/-- The words of the stream from `base` up. -/
def streamWords (x : Nat → Word) (base : Nat) : MtWords := (Vector.range 624).map fun i => x (base + i)

theorem streamWords_holdsFrom (x : Nat → Word) (base : Nat) : HoldsFrom x base (streamWords x base) := by
  intro i h
  rw [streamWords, Vector.getElem_map, Vector.getElem_range]

/-- Outputs, as responses, of the stream's words from `base` up. -/
theorem streamWords_map_temper_responses (x : Nat → Word) (base : Nat) :
    (((streamWords x base).map temper).toList.map fun w => (⟨.ok, .word w⟩ : Response)) =
      (List.range 624).map fun j => ⟨.ok, .word (temper (x (base + j)))⟩ := by
  simp only [streamWords, Vector.toList_map, Vector.toList_range, List.map_map, Function.comp_def]

theorem streamOf_holdsFrom (w : MtWords) : HoldsFrom (streamOf w) 0 w :=
  fun i h => by rw [Nat.zero_add, streamOf_of_lt w h]

/-- A generator of the given words that twists before its next output (R203, R206). -/
def Prng.ofWords (w : MtWords) : Prng := { s := w, cur := 624, phase := .seeded }

/-- A command that stores consecutive words of the stream leaves a generator whose next output is the word after them
(R203, R206). -/
theorem HoldsFrom.onStream {x : Nat → Word} {base : Nat} {w : MtWords} (h : HoldsFrom x base w) (s : State) :
    OnStream x ((s.setPrng (.ofWords w)).ok .none).prng (base + 624) :=
  ⟨rfl, le_refl 624, base, h, rfl⟩

/-- Settles O45: both commands leave a generator at word 624 of the stream of its words. -/
theorem mtStreamForm : Obligations.MtStreamForm := by
  intro seed words s c hc
  obtain ⟨w, hexec, hwords⟩ : ∃ w : MtWords,
      exec c s = .next ((s.setPrng (.ofWords w)).ok .none) ∧ (c = .mtFrom words → w = words) := by
    rcases List.mem_pair.1 hc with rfl | rfl
    · exact ⟨seedExpand seed, rfl, fun h => by cases h⟩
    · exact ⟨words, rfl, fun _ => rfl⟩
  have hx := streamOf_isStream w
  refine ⟨streamOf w, _, hexec, fun i => (streamOf_of_lt w i.isLt).symm, hwords, hx, fun n => ?_⟩
  obtain ⟨t, hrun, ht, -⟩ := ((streamOf_holdsFrom w).onStream s).execAll_mtNext hx n
  obtain ⟨t', hnext, -, hlast⟩ := ht.exec_mtNext hx
  rw [Nat.zero_add, Nat.add_comm] at hlast
  exact ⟨t, t', hrun, hnext, hlast⟩

/-- Settles O46: the 624 outputs are stream words from the cursor up, so the clone stands at the same place of the same
stream as the original. -/
theorem cloneFrom624Outputs : Obligations.CloneFrom624Outputs := by
  intro s s' hseeded hcur
  obtain ⟨x, hx, hs⟩ : ∃ x, IsStream x ∧ OnStream x s.prng s.prng.cur :=
    ⟨_, streamOf_isStream s.prng.s, hseeded, hcur, 0, streamOf_holdsFrom s.prng.s, Nat.zero_add _⟩
  obtain ⟨t, hrun, ht, hresponses⟩ := hs.execAll_mtNext hx 624
  have hclone := (streamWords_holdsFrom x s.prng.cur).onStream s'
  refine ⟨(streamWords x s.prng.cur).map temper, streamWords x s.prng.cur, t, _, hrun, ?outputs, fun i => ?words, rfl,
    fun k => ?later⟩
  case outputs => rw [hresponses, streamWords_map_temper_responses]
  case words =>
    rw [Fin.getElem_fin, Fin.getElem_fin, Vector.getElem_map]
    exact (untemper_temper _).symm
  case later =>
    obtain ⟨e, horiginal, -, houtputs⟩ := ht.execAll_mtNext hx k
    obtain ⟨e', hcloned, -, houtputs'⟩ := hclone.execAll_mtNext hx k
    exact ⟨_, e, e', by simp, horiginal, houtputs, hcloned, houtputs'⟩

end Sys2Proof.Machine

/-! Exceptions (spec 60_exceptions.md R230, R233 to R237): what a status does to the registers, which commands raise
which status, and what a latched CORE answers. A command that is done has answered `OK` or raised a status; what a raise
changes is then a fact about `State.raise`, and who raises a status is one about each command's rule. -/

namespace Sys2Proof.Machine

open Sys2Proof.Safety

/-! ### The latch and the phases -/

/-- Settles O2: the latch is looked at before the command. -/
theorem latchedCommandAnswersFaulted : Obligations.LatchedCommandAnswersFaulted :=
  fun _ _ _ _ hfault hpending => step_of_fault hpending hfault

/-- Settles O35: `IDLE` and `FINALIZED` are the phases in which a hash context is not live. -/
theorem badPhaseTraps : Obligations.BadPhaseTraps := by
  intro data s
  refine ⟨fun hphase => ?_, fun hphase => ?_, exec_mtNext_of_idle⟩
  · have hdead := HashPhase.not_live_iff.2 hphase
    exact ⟨exec_sha1Update_of_not_live data hdead, exec_sha1Finish_of_not_live hdead⟩
  · have hdead := HashPhase.not_live_iff.2 hphase
    exact ⟨exec_md4Update_of_not_live data hdead, exec_md4Finish_of_not_live hdead⟩

/-! ### What a status changes -/

/-- The fatal column of R230, by code. -/
theorem Status.fatal_iff (st : Status) : st.fatal = true ↔ 2 ≤ st.code.toNat ∧ st.code.toNat ≤ 6 := by
  cases st <;> decide

/-- A command has one response (R70), so any way to read it off the log gives the same. -/
theorem response_unique {s t : State} {r r' : Response} (h : t.responses = s.responses ++ [r])
    (h' : t.responses = s.responses ++ [r']) : r = r' :=
  List.singleton_inj.1 (List.append_cancel_left (h.symm.trans h'))

/-- A command that is done has answered `OK` after writing unit registers at most, or has raised a status in the state
it found: in the checks before its rule, or in the rule. -/
theorem issue_next_ok_or_raise {s t : State} {w : BitVec 32} {ops : List Operand} (h : issue w ops s = .next t) :
    (∃ (s' : State) (v : Result), AgreeOffUnits s s' ∧ t = s'.ok v) ∨ ∃ st, st ≠ .ok ∧ t = s.raise st := by
  rcases issue_next h with ⟨-, rfl⟩ | ⟨-, -, rfl⟩ | ⟨-, i, -, hexec⟩
  · exact .inr ⟨.faulted, by decide, rfl⟩
  · exact .inr ⟨.illegalCommand, by decide, rfl⟩
  · have hends := exec_ends i s
    rw [hexec] at hends
    cases hends with
    | ok hoff _ => exact .inl ⟨_, _, hoff, rfl⟩
    | raise hst => exact .inr ⟨_, hst, rfl⟩

/-- Settles O56: `OK` does not touch the latch, and a raise touches nothing else, and that for a fatal status alone. -/
theorem nonOkStatusWritesOnlyTheLatch : Obligations.NonOkStatusWritesOnlyTheLatch := by
  intro s t w ops rest r hpending hstep hresponses
  rw [step_of_pending_command hpending] at hstep
  rw [← Status.fatal_iff]
  rcases issue_next_ok_or_raise hstep with ⟨s', v, hoff, rfl⟩ | ⟨st, -, rfl⟩
  · obtain rfl : ⟨.ok, v⟩ = r :=
      response_unique (by rw [State.ok_responses, hoff.responses]) hresponses
    exact ⟨fun hne => absurd rfl hne, fun hfatal => absurd hfatal Bool.false_ne_true,
      fun _ => ⟨hoff.fault, hoff.fcode⟩⟩
  · obtain rfl : ⟨st, .none⟩ = r := response_unique (State.raise_responses s st) hresponses
    exact ⟨fun _ => by simp, fun hfatal => by simp [hfatal], fun hmild => by simp [hmild]⟩

/-! ### Who raises a status -/

/-- The commands whose own rule can raise a status: the raised-by column of R230. `Faulted` and `IllegalCommand` come
from the checks before the rule (R81). -/
@[simp] def Status.raisedBy : Status → List Opcode
  | .ok | .illegalCommand | .faulted => []
  | .invalidPadding => [.pkcs7TryStrip]
  | .oversizedBlock => [.pkcs7Pad]
  | .misalignedCiphertext => [.ecbDec, .cbcDec]
  | .invalidKeyLength => [.ecbEnc, .ecbDec, .cbcEnc, .cbcDec, .ctrXform]
  | .badPhase => [.sha1Update, .sha1Finish, .md4Update, .md4Finish, .mtNext]

/-- The status is one that the rule of the opcode may answer with (R230). -/
def Status.InRow (o : Opcode) (st : Status) : Prop := st = .ok ∨ o ∈ st.raisedBy

/-- The rule, started in `s`, answers with a status of the opcode's row, or stops with a fault of the model. -/
inductive AnswersInRow (o : Opcode) (s : State) : Host.Outcome State Fault Refusal → Prop where
  | answer {s' : State} {r : Response} (hresponses : s'.responses = s.responses) (hrow : r.status.InRow o) :
    AnswersInRow o s (.next (s'.conclude r))
  | fault (e : Fault) : AnswersInRow o s (.fault e)

section
variable {o : Opcode} {s : State}

theorem AnswersInRow.status {t : State} {r : Response} (h : AnswersInRow o s (.next t))
    (hresponses : t.responses = s.responses ++ [r]) : r.status.InRow o := by
  cases h with
  | @answer s' r' hbefore hrow =>
    obtain rfl : r' = r := response_unique (by rw [State.conclude_responses, hbefore]) hresponses
    exact hrow

theorem answersInRow_ok {s' : State} (v : Result) (hresponses : s'.responses = s.responses) :
    AnswersInRow o s (.next (s'.ok v)) :=
  State.ok_eq_conclude v s' ▸ .answer hresponses (.inl rfl)

theorem answersInRow_raise {st : Status} (hrow : o ∈ st.raisedBy) : AnswersInRow o s (.next (s.raise st)) :=
  State.raise_eq_conclude st s ▸ .answer rfl (.inr hrow)

/-- A check that raises one status and lets the command answer otherwise. -/
theorem answersInRow_check {c : Prop} [Decidable c] {st : Status} (hrow : o ∈ st.raisedBy) (v : Result) :
    AnswersInRow o s (if c then .next (s.raise st) else .next (s.ok v)) := by
  split
  · exact answersInRow_raise hrow
  · exact answersInRow_ok v rfl

theorem answersInRow_keyChecked (key : Bytes) {f : Key → Host.Outcome State Fault Refusal}
    (hrow : o ∈ Status.invalidKeyLength.raisedBy) (hf : ∀ k, AnswersInRow o s (f k)) :
    AnswersInRow o s (keyChecked key s f) := by
  unfold keyChecked
  split
  · exact answersInRow_raise hrow
  · exact hf _

theorem answersInRow_of_eq_runOn {U W : Type} {read : State → U} {store : W → State → State}
    {rule : U → Except Fault (W × Response)} {out : Host.Outcome State Fault Refusal}
    (hout : out = runOn read store rule s) (hstore : ∀ w, (store w s).responses = s.responses)
    (hrule : ∀ {w r}, rule (read s) = .ok (w, r) → r.status.InRow o) : AnswersInRow o s out := by
  rw [hout, runOn]
  split
  · next w r hok => exact .answer (hstore w) (hrule hok)
  · exact .fault _

theorem execPkcs7TryStrip_answersInRow (n : Nat) (data : Bytes) :
    AnswersInRow .pkcs7TryStrip s (execPkcs7TryStrip n data s) := by
  unfold execPkcs7TryStrip
  split
  · exact answersInRow_ok _ rfl
  · exact answersInRow_raise (by decide)

theorem updateRule_inRow {nw : Nat} {alg : HashAlg nw} {data : Bytes} {u : HashUnit nw} {w : HashWrite nw}
    {r : Response} (hrow : o ∈ Status.badPhase.raisedBy) (h : updateRule alg data u = .ok (w, r)) : r.status.InRow o := by
  unfold updateRule at h
  split at h
  · split at h
    · cases h; exact .inl rfl
    · cases h
  · cases h; exact .inr hrow

theorem finishRule_inRow {nw : Nat} {alg : HashAlg nw} {u : HashUnit nw} {w : HashWrite nw} {r : Response}
    (hrow : o ∈ Status.badPhase.raisedBy) (h : finishRule alg u = .ok (w, r)) : r.status.InRow o := by
  unfold finishRule at h
  split at h
  · split at h
    · cases h; exact .inl rfl
    · cases h
  · cases h; exact .inr hrow

theorem nextRule_inRow {p q : Prng} {r : Response} (hrow : o ∈ Status.badPhase.raisedBy)
    (h : nextRule p = .ok (q, r)) : r.status.InRow o := by
  unfold nextRule at h
  split at h
  · cases h; exact .inr hrow
  · split at h
    · cases h; exact .inl rfl
    · cases h

end

/-- Every command answers with a status of its row. -/
theorem exec_answersInRow (i : Instr) (s : State) : AnswersInRow i.opcode s (exec i s) := by
  cases i with
  | pkcs7Pad n data => exact answersInRow_check (by simp [Instr.opcode]) _
  | pkcs7TryStrip n data => exact execPkcs7TryStrip_answersInRow n data
  | ecbEnc key data | cbcEnc key iv data | ctrXform key nonce data =>
    exact answersInRow_keyChecked key (by simp [Instr.opcode]) fun _ => answersInRow_ok _ rfl
  | ecbDec key data | cbcDec key iv data =>
    exact answersInRow_keyChecked key (by simp [Instr.opcode]) fun _ => answersInRow_check (by simp [Instr.opcode]) _
  | sha1Update data =>
    exact answersInRow_of_eq_runOn (execSha1Update_eq_runOn data s) (State.storeSha1_responses s)
      (updateRule_inRow (by simp [Instr.opcode]))
  | sha1Finish =>
    exact answersInRow_of_eq_runOn (execSha1Finish_eq_runOn s) (State.storeSha1_responses s)
      (finishRule_inRow (by simp [Instr.opcode]))
  | md4Update data =>
    exact answersInRow_of_eq_runOn (execMd4Update_eq_runOn data s) (State.storeMd4_responses s)
      (updateRule_inRow (by simp [Instr.opcode]))
  | md4Finish =>
    exact answersInRow_of_eq_runOn (execMd4Finish_eq_runOn s) (State.storeMd4_responses s)
      (finishRule_inRow (by simp [Instr.opcode]))
  | mtNext =>
    exact answersInRow_of_eq_runOn (execMtNext_eq_runOn s) (State.setPrng_responses s)
      (nextRule_inRow (by simp [Instr.opcode]))
  | pkcs7Strip | sha1Init | sha1InitState | sha1Padding | md4Init | md4InitState | md4Padding
  | mtNew | mtFrom | mtInvRshift | mtInvLshift => exact answersInRow_ok _ rfl

/-- Settles O57: the column of R230, status by status. -/
theorem statusesAndTheirCommands : Obligations.StatusesAndTheirCommands := by
  intro i s t r hexec hresponses
  have hrow : r.status.InRow i.opcode := (hexec ▸ exec_answersInRow i s).status hresponses
  rcases hrow with hok | hraised
  · rw [hok]
    trivial
  · generalize r.status = st at hraised
    cases st with
    | ok => trivial
    | invalidPadding | oversizedBlock => exact List.mem_singleton.1 hraised
    | misalignedCiphertext | invalidKeyLength | badPhase => exact hraised
    | illegalCommand | faulted => exact List.not_mem_nil hraised

end Sys2Proof.Machine

/-! Safety (spec 70_reset_and_hazards.md R266, R276, R277). In a state that meets the invariant a command's rule is
carried out and leaves a state that meets it. The two facts are proved together: that the invariant holds is what keeps
the rule from a fault, by the bytes a live context has written for the hash units and by the bound of the cursor for
`MT_NEXT`. A step follows by the kind of the next event. -/

namespace Sys2Proof.Machine

open Sys2Proof.Safety

/-! ### The updates of the state -/

section
variable {s : State}

theorem latchOk_conclude (h : LatchOk s) (r : Response) : LatchOk (s.conclude r) := by
  unfold State.conclude
  split
  · next hfatal => exact .inr ⟨rfl, (Status.fatal_iff r.status).1 hfatal⟩
  · exact h

theorem coreInv_conclude (h : CoreInv s) (r : Response) : CoreInv (s.conclude r) := by
  obtain ⟨hlatch, hsha1, hmd4, hprng⟩ := h
  exact ⟨latchOk_conclude hlatch r, by simpa using hsha1, by simpa using hmd4, by simpa using hprng⟩

theorem coreInv_setPrng (h : CoreInv s) {p : Prng} (hp : PrngOk p) : CoreInv (s.setPrng p) := by
  obtain ⟨hlatch, hsha1, hmd4, -⟩ := h
  exact ⟨hlatch, hsha1, hmd4, hp⟩

/-- The registers a write gives are well formed; the unspecified ones are so whatever the free values are. -/
def HashWrite.Ok {nw : Nat} : HashWrite nw → Prop
  | .registers u => HashOk u
  | .unspecified => True

theorem coreInv_storeSha1 (h : CoreInv s) {w : HashWrite 5} (hw : w.Ok) : CoreInv (s.storeSha1 w) := by
  obtain ⟨hlatch, -, hmd4, hprng⟩ := h
  cases w with
  | registers u => exact ⟨hlatch, hw, hmd4, hprng⟩
  | unspecified => exact ⟨hlatch, finalizedUnit_ok 5 s.freeCount, hmd4, hprng⟩

theorem coreInv_storeMd4 (h : CoreInv s) {w : HashWrite 4} (hw : w.Ok) : CoreInv (s.storeMd4 w) := by
  obtain ⟨hlatch, hsha1, -, hprng⟩ := h
  cases w with
  | registers u => exact ⟨hlatch, hsha1, hw, hprng⟩
  | unspecified => exact ⟨hlatch, hsha1, finalizedUnit_ok 4 s.freeCount, hprng⟩

/-- The reset event gives the registers of reset. -/
theorem coreInv_resetEvent (s : State) : CoreInv s.resetEvent := invAtReset

end

/-! ### The rules of the units -/

section
variable {nw : Nat} (alg : HashAlg nw) {u : HashUnit nw} (hok : HashOk u)
include hok

theorem hashInit_ok : HashOk (hashInit alg u) :=
  ⟨hok.1, Nat.zero_le 63, fun _ a ha => absurd ha (Nat.not_lt_zero a)⟩

theorem hashInitState_ok (digest : BytesN (4 * nw)) (consumed : DWord) :
    HashOk (hashInitState alg u digest consumed) :=
  ⟨hok.1, Nat.zero_le 63, fun _ a ha => absurd ha (Nat.not_lt_zero a)⟩

/-- A live context takes in any data and is well formed again: every push keeps the buffer canonical, and the bytes it
leaves below the cursor are the rest of the message (R266). -/
theorem hashUpdate_ok (hlive : u.phase.live = true) (data : Bytes) :
    ∃ v, hashUpdate alg u data = .ok v ∧ HashOk v := by
  have ⟨hcanonical, hle, _⟩ := hok
  obtain ⟨held, hb⟩ := exists_buffered hok hlive
  obtain ⟨v, rest, -, hpush, -, ⟨hfill, -, hread⟩, -⟩ := pushAll_buffered alg hb data
  obtain ⟨hwf, hlt⟩ := pushAll_wf alg hpush hcanonical (Nat.lt_succ_of_le hle)
  refine ⟨_, hashUpdate_of_pushAll hpush, hwf, Nat.le_of_lt_succ hlt, fun _ a ha => ?_⟩
  exact Option.isSome_of_eq_some (hread a (hfill ▸ ha))

theorem updateRule_ok (data : Bytes) : ∃ w r, updateRule alg data u = .ok (w, r) ∧ w.Ok := by
  unfold updateRule
  split
  · next hlive =>
    obtain ⟨v, hupdate, hv⟩ := hashUpdate_ok alg hok hlive data
    exact ⟨.registers v, ⟨.ok, .none⟩, by rw [hupdate], hv⟩
  · exact ⟨.registers u, ⟨.badPhase, .none⟩, rfl, hok⟩

theorem finishRule_ok : ∃ w r, finishRule alg u = .ok (w, r) ∧ w.Ok := by
  unfold finishRule
  split
  · next hlive =>
    obtain ⟨d, hfinish, -⟩ := hashFinish_digests (alg := alg) hok hlive
    exact ⟨.unspecified, ⟨.ok, .bytes d⟩, by rw [hfinish], trivial⟩
  · exact ⟨.registers u, ⟨.badPhase, .none⟩, rfl, hok⟩

end

/-- With the cursor in 0..624 there is a word to temper (R35, R207). -/
theorem exists_mtAdvance {p : Prng} (h : p.cur ≤ 624) : ∃ q w, mtAdvance p = some (q, w) := by
  rcases Nat.lt_or_eq_of_le h with hlt | heq
  · exact ⟨_, _, mtAdvance_of_lt hlt⟩
  · exact ⟨_, _, mtAdvance_of_eq heq⟩

theorem nextRule_ok {p : Prng} (h : PrngOk p) : ∃ q r, nextRule p = .ok (q, r) ∧ PrngOk q := by
  unfold nextRule
  split
  · exact ⟨p, ⟨.badPhase, .none⟩, rfl, h⟩
  · obtain ⟨q, out, hadvance⟩ := exists_mtAdvance h.1
    obtain ⟨-, hpos, hle, -⟩ := mtAdvance_cases hadvance
    exact ⟨q, ⟨.ok, .word out⟩, by rw [hadvance], hle, fun _ => hpos⟩

/-- A freshly seeded generator is about to twist (R203, R206). -/
theorem seeded_ok (words : MtWords) : PrngOk { s := words, cur := 624, phase := .seeded } :=
  ⟨Nat.le_refl 624, fun _ => Nat.le_add_left 1 623⟩

/-! ### Every command -/

/-- The outcome is a next state, and that state meets the invariant. -/
def NextInv (out : Host.Outcome State Fault Refusal) : Prop := ∃ t, out = .next t ∧ CoreInv t

theorem NextInv.of_eq {out : Host.Outcome State Fault Refusal} {t : State} (h : NextInv out) (ht : out = .next t) :
    CoreInv t := by
  obtain ⟨t', rfl, hinv⟩ := h
  cases ht
  exact hinv

section
variable {s : State}

theorem nextInv_ok (h : CoreInv s) (v : Result) : NextInv (.next (s.ok v)) :=
  ⟨_, rfl, coreInv_conclude h ⟨.ok, v⟩⟩

theorem nextInv_raise (h : CoreInv s) (st : Status) : NextInv (.next (s.raise st)) :=
  ⟨_, rfl, coreInv_conclude h ⟨st, .none⟩⟩

theorem nextInv_of_pure (h : CoreInv s) {i : Instr} (hpure : i.opcode ∈ pureOpcodes) : NextInv (exec i s) := by
  obtain ⟨r, hr⟩ := exec_stateFree hpure
  exact ⟨_, hr s, coreInv_conclude h r⟩

/-- A command that works on its own unit: its rule answers, and what the rule gives can be stored. -/
theorem nextInv_of_eq_runOn {U W : Type} {read : State → U} {store : W → State → State}
    {rule : U → Except Fault (W × Response)} {good : W → Prop} {out : Host.Outcome State Fault Refusal}
    (hout : out = runOn read store rule s) (hrule : ∃ w r, rule (read s) = .ok (w, r) ∧ good w)
    (hstore : ∀ {w}, good w → CoreInv (store w s)) : NextInv out := by
  obtain ⟨w, r, hok, hw⟩ := hrule
  exact ⟨_, hout.trans (runOn_of_ok hok), coreInv_conclude (hstore hw) r⟩

/-- In a state that meets the invariant every command is carried out, and the invariant holds again. -/
theorem exec_nextInv (i : Instr) (h : CoreInv s) : NextInv (exec i s) := by
  have ⟨_, hsha1, hmd4, hprng⟩ := h
  cases i with
  | sha1Init => exact nextInv_ok (coreInv_storeSha1 h (w := .registers _) (hashInit_ok sha1Alg hsha1)) .none
  | sha1InitState digest consumed =>
    exact nextInv_ok (coreInv_storeSha1 h (w := .registers _) (hashInitState_ok sha1Alg hsha1 digest consumed)) .none
  | sha1Update data =>
    exact nextInv_of_eq_runOn (execSha1Update_eq_runOn data s) (updateRule_ok sha1Alg hsha1 data) (coreInv_storeSha1 h)
  | sha1Finish =>
    exact nextInv_of_eq_runOn (execSha1Finish_eq_runOn s) (finishRule_ok sha1Alg hsha1) (coreInv_storeSha1 h)
  | md4Init => exact nextInv_ok (coreInv_storeMd4 h (w := .registers _) (hashInit_ok md4Alg hmd4)) .none
  | md4InitState digest consumed =>
    exact nextInv_ok (coreInv_storeMd4 h (w := .registers _) (hashInitState_ok md4Alg hmd4 digest consumed)) .none
  | md4Update data =>
    exact nextInv_of_eq_runOn (execMd4Update_eq_runOn data s) (updateRule_ok md4Alg hmd4 data) (coreInv_storeMd4 h)
  | md4Finish =>
    exact nextInv_of_eq_runOn (execMd4Finish_eq_runOn s) (finishRule_ok md4Alg hmd4) (coreInv_storeMd4 h)
  | mtNew seed => exact nextInv_ok (coreInv_setPrng h (seeded_ok (seedExpand seed))) .none
  | mtFrom words => exact nextInv_ok (coreInv_setPrng h (seeded_ok words)) .none
  | mtNext => exact nextInv_of_eq_runOn (execMtNext_eq_runOn s) (nextRule_ok hprng) (coreInv_setPrng h)
  | pkcs7Pad | pkcs7Strip | pkcs7TryStrip | ecbEnc | ecbDec | cbcEnc | cbcDec | ctrXform | sha1Padding | md4Padding
  | mtInvRshift | mtInvLshift => exact nextInv_of_pure h (by simp [Instr.opcode, pureOpcodes])

/-! ### Every step -/

/-- With nothing presented the CORE is idle (R246, R277). -/
theorem step_of_pending_nil (h : s.pending = []) : step s = .next s := by
  rw [step, nextEvent, h]

/-- A command that the host can present is answered: `Faulted`, `IllegalCommand` or by its own rule (R81). -/
theorem issue_nextInv (h : CoreInv s) {w : BitVec 32} {ops : List Operand} (hp : Presentable (.command w ops)) :
    NextInv (issue w ops s) := by
  cases hfault : s.fault with
  | true => exact issue_of_fault hfault ▸ nextInv_raise h .faulted
  | false =>
    cases hrow : selectRow w with
    | none => exact issue_of_illegal hfault hrow ▸ nextInv_raise h .illegalCommand
    | some o =>
      obtain ⟨i, hdecode, -⟩ := (legalWordDecodesWithItsOperandTypes w o hrow ops).1 (hp o hrow)
      exact issue_of_decode hfault hdecode ▸ exec_nextInv i h

/-- What is issued keeps the invariant; operands that cannot be presented are refused and reach no next state. -/
theorem coreInv_of_issue (h : CoreInv s) {w : BitVec 32} {ops : List Operand} {t : State}
    (hissue : issue w ops s = .next t) : CoreInv t := by
  rcases issue_next hissue with ⟨-, rfl⟩ | ⟨-, -, rfl⟩ | ⟨-, i, -, hexec⟩
  · exact coreInv_conclude h ⟨.faulted, .none⟩
  · exact coreInv_conclude h ⟨.illegalCommand, .none⟩
  · exact (exec_nextInv i h).of_eq hexec

end

/-- Settles O53: an idle step changes nothing, a reset gives the registers of reset, and every command keeps the
invariant. -/
theorem stepKeepsInv : Obligations.StepKeepsInv := by
  intro s t h hstep
  match hpending : s.pending with
  | [] => rw [step_of_pending_nil hpending] at hstep; cases hstep; exact h
  | .reset :: rest => rw [step_of_pending_reset hpending] at hstep; cases hstep; exact coreInv_resetEvent s
  | .command w ops :: rest => rw [step_of_pending_command hpending] at hstep; exact coreInv_of_issue h hstep

/-- Settles O54: idling and the reset event always answer, and so does the issue of a presentable command. -/
theorem neverStuck : Obligations.NeverStuck := by
  intro s h hpresentable
  match hpending : s.pending with
  | [] => exact ⟨s, step_of_pending_nil hpending⟩
  | .reset :: rest => exact ⟨s.resetEvent, step_of_pending_reset hpending⟩
  | .command w ops :: rest =>
    obtain ⟨t, ht, -⟩ := issue_nextInv h (hpresentable _ _ hpending)
    exact ⟨t, (step_of_pending_command hpending).trans ht⟩

end Sys2Proof.Machine
